-- ==== Sys2Proof/Word.lean ====
section
/-! DEFINITION. The one data width of CORE: every operand, result, register cell, register address and the register-file
size argument is 8 bits wide (00_scope.md R7), an unsigned value 0..255 (R11), bit 0 least significant (R10). -/

namespace Sys2Proof

/-- An 8-bit value: operand, result, cell, address or size (R7). -/
abbrev Byte := BitVec 8

end Sys2Proof
end

