-- ==== Sys2Proof/Config.lean ====
section
/-! DEFINITION. The implementation parameters of 00_scope.md R9 that are not fixed by the design: the error policy and the
type of latency values. The other rows of R9 are fixed as R9 shows them, each in the one definition that uses it: opcode
values (Decode.lean), flag layout (Machine/Flags.lean), status codes (Machine/Ops.lean). -/

namespace Sys2Proof

/-- The model parameter ERROR_POLICY (R204, D5): what an error does besides being reported. -/
inductive ErrorPolicy where
  /-- The error goes back to the orchestrator and the next transaction is taken normally (R205). -/
  | ret
  /-- The reference behaviour: the erroring transaction sets `halted` (R206). -/
  | halt
  deriving DecidableEq, Repr

/-- Which labels beside the first stand for a value of the type parameter `Latency` (R9, D12). It has no body: the model
does not say which type it is, and no proof can use more than that it has a value (log 5). -/
opaque Config.isLatency : Nat → Bool

/-- The type parameter `Latency` of R9 (D12): an unspecified type, given by labels for its values, of which there is at least
one, `first`. Everything proved of it holds whatever countable type the hardware uses, finite or not. DESIGN CHOICE (log 5)
for the labels. No rule reads a value (R240) and nothing in the model computes from one. -/
inductive Latency where
  | first
  | other (label : Nat) (legal : Config.isLatency label = true)
  deriving DecidableEq, Repr, Inhabited

/-- The latency a script's number stands for (30_encoding.md R79). The spec gives latencies no units and no range
(91_not_in_source.md N12), so it has no body (log 5). -/
opaque Config.latencyOf : Nat → Latency

/-- The default of ERROR_POLICY is `return` (R9, R205). The state carries the policy, so both are modelled (log 4). -/
def Config.errorPolicy : ErrorPolicy := .ret

end Sys2Proof
end

