-- ==== Sys2Proof/Syntax.lean ====
section
/-! DEFINITION. The whole syntax: the opcodes, one constructor of `Instr` for each row of spec/opcode_table.json, the request
port's records (30_encoding.md R73, R76), and the orchestrator's scripts (30_encoding.md R79, 44_orchestration.md R191, R194). -/

namespace Sys2Proof

/-- The arithmetic group: opcodes with bit 2 clear (30_encoding.md R70). -/
inductive ArithOp where
  | add | adc | sub | sbc
  deriving DecidableEq, Repr

/-- The logic group: opcodes with bit 2 set (30_encoding.md R70). -/
inductive LogicOp where
  | nor | and | xor | rsh
  deriving DecidableEq, Repr

/-- "an 8-valued enumeration, 3-bit-addressable, partitioned by its high bit into an arithmetic group and a logic group" (R70). -/
inductive Opcode where
  | arith (m : ArithOp)
  | logic (m : LogicOp)
  deriving DecidableEq, Repr

/-- What the orchestrator can issue: one constructor per row of spec/opcode_table.json. The first eight are the OPC3 rows,
an `execute` request whose opcode is named by its mnemonic; the other nine are the TXN4 rows, the transactions of R76.
An OPC3 row and `aluExecute` with that row's opcode are the same transaction in two request formats (log 11). -/
inductive Instr where
  | add (a b : Byte)
  | adc (a b : Byte)
  | sub (a b : Byte)
  | sbc (a b : Byte)
  | nor (a b : Byte)
  | and (a b : Byte)
  | xor (a b : Byte)
  | rsh (a b : Byte)
  | aluConfigure (latency : Latency)
  | aluExecute (a b : Byte) (op : BitVec 3)
  | aluLast
  | rfCreate (size : Byte) (reserveZero : Bool) (readLatency writeLatency : Latency)
  | rfWrite (addr value : Byte)
  | rfRead (addr : Byte)
  | rfReadPair (addrA addrB : Byte)
  | rfClear
  | rfDump
  deriving DecidableEq, Repr

/-- The request fields of R76, one wire bundle each, with the widths R76 gives ("No packed instruction word exists", R73).
A transaction looks only at the fields R76 lists for it; an encoder drives the others to zero, a latency to `first` (log 22). -/
structure Fields where
  a : Byte := 0
  b : Byte := 0
  op : BitVec 3 := 0
  size : Byte := 0
  reserveZero : Bool := false
  addr : Byte := 0
  value : Byte := 0
  addrA : Byte := 0
  addrB : Byte := 0
  latency : Latency := .first
  readLatency : Latency := .first
  writeLatency : Latency := .first
  deriving DecidableEq, Repr

/-- One request as it stands at the port, in one of the two formats of spec/opcode_table.json (DESIGN CHOICE, log 11). -/
inductive Request where
  /-- Format TXN4: the 4-bit selector `txn[3:0]` and the request fields (30_encoding.md R76). -/
  | txn (sel : BitVec 4) (fields : Fields)
  /-- Format OPC3: an `execute` request (`txn` 0001) given by its 3-bit opcode field and its operands (R73). -/
  | opc (op : BitVec 3) (a b : Byte)
  deriving DecidableEq, Repr

/-- The six flags by name (10_state.md R31). -/
inductive Flag where
  | c | nc | z | nz | ev | od
  deriving DecidableEq, Repr

/-- A source of a pseudo-instruction: `r<i>` or `#<value>` (R79). -/
inductive Source where
  | reg (i : Byte)
  | imm (k : Byte)
  deriving DecidableEq, Repr

/-- The pseudo-instruction `<M> <dst>, <srcA>, <srcB>`; no destination is the form `M -, …` (44_orchestration.md R191). -/
structure Pseudo where
  op : Opcode
  dst : Option Byte
  srcA : Source
  srcB : Source
  deriving DecidableEq, Repr

/-- What a script line makes the orchestrator issue: one transaction, or one pseudo-instruction's expansion (R79). -/
inductive Action where
  | transaction (i : Instr)
  | pseudo (p : Pseudo)
  deriving DecidableEq, Repr

/-- A script line (R79, R194). A label is a name; it names the next line. -/
inductive Line where
  | act (x : Action)
  | label (name : String)
  | ifThen (f : Flag) (yes : Action) (no : Option Action)
  | ifGoto (f : Flag) (name : String)
  deriving DecidableEq, Repr

end Sys2Proof
end

