-- ==== Sys2Proof/WellFormed.lean ====
section
/-! DEFINITION. Well-formedness. Every operand's bound is in its type (00_scope.md R7, R8; D22), and R74, D12 and D13 accept
every value, so every `Instr` is well formed; the check stands for the request a well-formed instruction becomes, and for scripts. -/

namespace Sys2Proof

/-- Every instruction is well formed: the opcode has no illegal value (30_encoding.md R74), every latency is accepted (D12),
every size 0..255 is accepted (D13), and an address out of range is an error of the transaction, not of its form (R50). -/
def Instr.wellFormed : Instr → Bool
  | .add _ _ | .adc _ _ | .sub _ _ | .sbc _ _ | .nor _ _ | .and _ _ | .xor _ _ | .rsh _ _ => true
  | .aluConfigure _ | .aluExecute _ _ _ | .aluLast => true
  | .rfCreate _ _ _ _ | .rfWrite _ _ | .rfRead _ | .rfReadPair _ _ | .rfClear | .rfDump => true

/-- The fields that 30_encoding.md R76 lists for the selector `sel`, kept; every other field at zero. -/
def Fields.listedFor (sel : BitVec 4) (f : Fields) : Fields :=
  if sel = 0b0000#4 then { latency := f.latency }
  else if sel = 0b0001#4 then { a := f.a, b := f.b, op := f.op }
  else if sel = 0b1000#4 then
    { size := f.size, reserveZero := f.reserveZero, readLatency := f.readLatency, writeLatency := f.writeLatency }
  else if sel = 0b1001#4 then { addr := f.addr, value := f.value }
  else if sel = 0b1010#4 then { addr := f.addr }
  else if sel = 0b1011#4 then { addrA := f.addrA, addrB := f.addrB }
  else {}

/-- A request is well formed when it drives only the fields R76 lists for its selector. An OPC3 request always is. -/
def Request.wellFormed : Request → Bool
  | .txn sel f => f == f.listedFor sel
  | .opc _ _ _ => true

/-- The labels a script defines, in order. -/
def labelsOf (script : List Line) : List String :=
  script.filterMap fun
    | .label n => some n
    | .act _ | .ifThen _ _ _ | .ifGoto _ _ => none

/-- Every `goto` names a label of the script (log 19). -/
def gotosDefined (script : List Line) : Bool :=
  script.all fun
    | .ifGoto _ n => (labelsOf script).contains n
    | .act _ | .label _ | .ifThen _ _ _ => true

/-- A script is well formed when no label stands twice and every `goto` has its label. DESIGN CHOICE (log 19): R194 speaks of
neither, nor of a label on the last line, which is accepted. -/
def scriptWellFormed (script : List Line) : Bool :=
  decide (labelsOf script).Nodup && gotosDefined script

end Sys2Proof
end

