-- ==== Sys2Proof/Decode.lean ====
section
/-! DEFINITION. Decoding a request and encoding an instruction (30_encoding.md R70 to R77). The opcode numbers are the
spec's decision D2 (UNVERIFIED against the source, log 1), the selector codes its decision D14. -/

namespace Sys2Proof

/-- Why a request decodes to nothing. -/
inductive DecodeError where
  /-- The selector names no transaction (30_encoding.md R77). -/
  | noTransaction (txn : BitVec 4)
  deriving DecidableEq, Repr

/-- The opcode field's meaning, from its top bit down (R70, R71): bit 2 is the group, bit 1 the invert bit of the
arithmetic group, bit 0 selects within each pair. Total: every value names an operation (R74). -/
def Opcode.ofCode (op : BitVec 3) : Opcode :=
  match op.getLsbD 2, op.getLsbD 1, op.getLsbD 0 with
  | false, false, false => .arith .add
  | false, false, true => .arith .adc
  | false, true, false => .arith .sub
  | false, true, true => .arith .sbc
  | true, false, false => .logic .nor
  | true, false, true => .logic .and
  | true, true, false => .logic .xor
  | true, true, true => .logic .rsh

/-- The instruction an OPC3 request stands for: the opcode's own constructor. -/
def decodeOpc (op : BitVec 3) (a b : Byte) : Instr :=
  match Opcode.ofCode op with
  | .arith .add => .add a b
  | .arith .adc => .adc a b
  | .arith .sub => .sub a b
  | .arith .sbc => .sbc a b
  | .logic .nor => .nor a b
  | .logic .and => .and a b
  | .logic .xor => .xor a b
  | .logic .rsh => .rsh a b

/-- The transaction a TXN4 request stands for (R76); the codes 0011 to 0111, 1110 and 1111 name none (R77). -/
def decodeTxn (sel : BitVec 4) (f : Fields) : Except DecodeError Instr :=
  if sel = 0b0000#4 then .ok (.aluConfigure f.latency)
  else if sel = 0b0001#4 then .ok (.aluExecute f.a f.b f.op)
  else if sel = 0b0010#4 then .ok .aluLast
  else if sel = 0b1000#4 then .ok (.rfCreate f.size f.reserveZero f.readLatency f.writeLatency)
  else if sel = 0b1001#4 then .ok (.rfWrite f.addr f.value)
  else if sel = 0b1010#4 then .ok (.rfRead f.addr)
  else if sel = 0b1011#4 then .ok (.rfReadPair f.addrA f.addrB)
  else if sel = 0b1100#4 then .ok .rfClear
  else if sel = 0b1101#4 then .ok .rfDump
  else .error (.noTransaction sel)

/-- Decoding, total on every request. Fields R76 does not list for the selector are not looked at (log 22). -/
def decode : Request → Except DecodeError Instr
  | .txn sel f => decodeTxn sel f
  | .opc op a b => .ok (decodeOpc op a b)

/-- The opcode numbers of R71 (D2). -/
def Opcode.code : Opcode → BitVec 3
  | .arith .add => 0b000#3
  | .arith .adc => 0b001#3
  | .arith .sub => 0b010#3
  | .arith .sbc => 0b011#3
  | .logic .nor => 0b100#3
  | .logic .and => 0b101#3
  | .logic .xor => 0b110#3
  | .logic .rsh => 0b111#3

/-- The request an instruction is issued as: R71's opcode for an OPC3 row, R76's selector and fields for a transaction. -/
def encode : Instr → Request
  | .add a b => .opc 0b000#3 a b
  | .adc a b => .opc 0b001#3 a b
  | .sub a b => .opc 0b010#3 a b
  | .sbc a b => .opc 0b011#3 a b
  | .nor a b => .opc 0b100#3 a b
  | .and a b => .opc 0b101#3 a b
  | .xor a b => .opc 0b110#3 a b
  | .rsh a b => .opc 0b111#3 a b
  | .aluConfigure lat => .txn 0b0000#4 { latency := lat }
  | .aluExecute a b op => .txn 0b0001#4 { a := a, b := b, op := op }
  | .aluLast => .txn 0b0010#4 {}
  | .rfCreate size rz rl wl =>
      .txn 0b1000#4 { size := size, reserveZero := rz, readLatency := rl, writeLatency := wl }
  | .rfWrite addr value => .txn 0b1001#4 { addr := addr, value := value }
  | .rfRead addr => .txn 0b1010#4 { addr := addr }
  | .rfReadPair a b => .txn 0b1011#4 { addrA := a, addrB := b }
  | .rfClear => .txn 0b1100#4 {}
  | .rfDump => .txn 0b1101#4 {}

/-- The request that a bit pattern of spec/opcode_table.json stands for, every field the table gives no bits at zero.
The table has two formats over the same low bits. Three bits are an OPC3 opcode and four bits a TXN4 selector; in whole
bytes the table's own bits do not say which, and a byte is read as the selector it names, else as an opcode if it is
below 8 (DESIGN CHOICE, log 12). A byte of 16 or more is no row of the table. -/
def tableRequest (nbits w : Nat) : Option Request :=
  if nbits = 3 then some (.opc (BitVec.ofNat 3 w) 0 0)
  else if nbits = 4 then some (.txn (BitVec.ofNat 4 w) {})
  else if 16 ≤ w then none
  else if 3 ≤ w ∧ w < 8 then some (.opc (BitVec.ofNat 3 w) 0 0)
  else some (.txn (BitVec.ofNat 4 w) {})

/-- The instruction the decoder reads from a bit pattern of spec/opcode_table.json. -/
def decodeTableWord (nbits w : Nat) : Option Instr :=
  match tableRequest nbits w with
  | none => none
  | some r =>
    match decode r with
    | .ok i => some i
    | .error _ => none

end Sys2Proof
end

