-- ==== Sys2Proof/Machine/State.lean ====
section
/-! DEFINITION. The machine's state as plain data: CORE's own record (10_state.md R20), the error policy it was built with,
and the model's two boundary lists, the inputs presented and the responses given. -/

namespace Sys2Proof.Machine

/-- FlagSet, "a bitset of six flags" (10_state.md R31), one Bool each. -/
structure FlagSet where
  c : Bool
  nc : Bool
  z : Bool
  nz : Bool
  ev : Bool
  od : Bool
  deriving DecidableEq, Repr

/-- ExecutionResult: "an 8-bit result value plus its FlagSet, produced once per call" (00_scope.md section 5). -/
structure ExecResult where
  result : Byte
  flags : FlagSet
  deriving DecidableEq, Repr

/-- The ALU's state (10_state.md R20, R35, R38, R40). -/
structure Alu where
  configured : Bool
  latency : Option Latency
  last : Option ExecResult
  deriving DecidableEq, Repr

/-- Storage of the register cells: (index, byte) pairs in canonical form (log 14): indices strictly rising, no entry equal
to the 0 an unlisted index reads as. `Memory.wf` in Machine/Ops.lean says the form. -/
abbrev Memory := List Host.Cell

/-- The register file's state (10_state.md R20, R36, R37). `size` and `reserveZero` are absent until `create`: R45 gives
"not meaningful until `create`. A model stores none." -/
structure RegFile where
  created : Bool
  size : Option Byte
  reserveZero : Option Bool
  readLatency : Option Latency
  writeLatency : Option Latency
  cell : Memory
  deriving DecidableEq, Repr

/-- "The whole state of CORE is this record. Nothing else persists between transactions." (10_state.md R20) One
ALU and one register file (D20, log 24). -/
structure CoreState where
  alu : Alu
  rf : RegFile
  halted : Bool
  deriving DecidableEq, Repr

/-- The error taxonomy (60_exceptions.md R200): five distinct errors, each with the information R200 records. -/
inductive Err where
  | notConfigured
  | notCreated
  | alreadyConfigured
  | alreadyCreated
  | addressOutOfRange (addr size : Byte)
  deriving DecidableEq, Repr

/-- The success payloads of 30_encoding.md R76. -/
inductive Payload where
  /-- `configure`, `create`, `clear` -/
  | none
  /-- `execute`: the result and its flags -/
  | result (r : ExecResult)
  /-- `last`: none, or the most recent result and its flags -/
  | last (r : Option ExecResult)
  /-- `write`: whether the write was discarded at a reserved cell 0 (43_register_file.md R162; D21, log 25) -/
  | notice (discarded : Bool)
  /-- `read` -/
  | value (v : Byte)
  /-- `read_pair` -/
  | pair (a b : Byte)
  /-- `dump`: (index, value) pairs -/
  | cells (entries : List (Byte × Byte))
  deriving DecidableEq, Repr

/-- A response: the success payload comes only with status OK, an error carries its information (30_encoding.md R78). -/
inductive Response where
  | ok (p : Payload)
  | err (e : Err)
  deriving DecidableEq, Repr

/-- What the outside can present to CORE (log 10). -/
inductive Input where
  /-- One transaction's request, alone: the contract of 20_memory.md R53 and R59. -/
  | request (r : Request)
  /-- Two or more requests at once, outside the contract (20_memory.md R59, D26). -/
  | overlapping (first second : Request) (others : List Request)
  /-- The block is destroyed and constructed again: the reset of 70_reset_and_hazards.md R230. No transaction causes it. -/
  | reset
  deriving DecidableEq, Repr

/-- The machine. `core` is CORE; the other three fields are the model's (INVENTORY.md, State). -/
structure State where
  core : CoreState
  errorPolicy : ErrorPolicy
  inputs : List Input
  responses : List Response
  deriving DecidableEq, Repr

/-- Why the machine stops with a fault. -/
inductive Fault where
  /-- A transaction was issued while `halted` is set: "no transaction has a step: the core is stuck for good"
  (60_exceptions.md R206). Raised by every transaction, through `unlessHalted`. Safe: it is the spec's own stuck state. -/
  | halted
  deriving DecidableEq, Repr

/-- Why there is no step. -/
inductive Refusal where
  /-- The instruction has no meaning yet; raised only by `exec`'s refused arms (none at present). Safe. -/
  | notModelled (mnemonic : String)
  /-- The selector names no transaction: "it has no step, and no response" (30_encoding.md R77; log 18). Raised by `step`. Safe. -/
  | noTransaction (txn : BitVec 4)
  /-- Overlapping requests: "outside the contract, and a model refuses them" (20_memory.md R59; log 17). Raised by `step`. Safe. -/
  | overlapping
  /-- Nothing is presented, so there is no transaction to take (R220: CORE acts only on transactions; log 13). Raised by
  `step`. Safe. -/
  | noRequest
  deriving DecidableEq, Repr

/-- The outcomes of a transaction. -/
abbrev Result := Host.Outcome State Fault Refusal

/-- The ALU after construction: Unconfigured, no latency, no last result (10_state.md R45). -/
def Alu.reset : Alu := { configured := false, latency := none, last := none }

/-- The register file after construction: Uncreated, no configuration, no cells (10_state.md R45). -/
def RegFile.reset : RegFile :=
  { created := false, size := none, reserveZero := none, readLatency := none, writeLatency := none, cell := [] }

/-- CORE after construction (10_state.md R45, 70_reset_and_hazards.md R230). -/
def CoreState.reset : CoreState := { alu := Alu.reset, rf := RegFile.reset, halted := false }

/-- The machine right after reset: CORE as R45 says, under the default error policy, nothing presented (log 13), no
response given (log 10). -/
def State.reset : State :=
  { core := CoreState.reset, errorPolicy := Config.errorPolicy, inputs := [], responses := [] }

end Sys2Proof.Machine
end

