-- ==== Sys2Proof/Machine/Flags.lean ====
section
/-! DEFINITION. The one flag derivation of CORE (40_alu_control.md R104 to R106) and the flag set's layout (10_state.md R31). -/

namespace Sys2Proof.Machine

/-- Flag derivation from the carry `c` and the final 8-bit result, the same for all eight opcodes (R104): Z iff the result
is 0 (R105), EV iff its low bit is 0 (R106), and each pair complementary (R32). -/
def mkFlags (c : Bool) (result : Byte) : FlagSet :=
  { c := c
    nc := !c
    z := decide (result = 0)
    nz := !decide (result = 0)
    ev := !result.getLsbD 0
    od := result.getLsbD 0 }

/-- An ExecutionResult: the result with the flags R104 derives (40_alu_control.md R102). -/
def mkResult (result : Byte) (c : Bool) : ExecResult := { result := result, flags := mkFlags c result }

/-- The flag a name stands for (10_state.md R31), as the orchestrator reads it (44_orchestration.md R194). -/
def FlagSet.get (f : FlagSet) : Flag → Bool
  | .c => f.c
  | .nc => f.nc
  | .z => f.z
  | .nz => f.nz
  | .ev => f.ev
  | .od => f.od

/-- The bit position of a flag (10_state.md R31). The positions are the spec's decision D3 (UNVERIFIED, log 2). -/
def flagPosition : Flag → Nat
  | .c => 0
  | .nc => 1
  | .z => 2
  | .nz => 3
  | .ev => 4
  | .od => 5

/-- The 6-bit value of a flag set in R31's layout. -/
def FlagSet.bits (f : FlagSet) : BitVec 6 :=
  BitVec.ofNat 6 (f.c.toNat * 2 ^ flagPosition .c + f.nc.toNat * 2 ^ flagPosition .nc + f.z.toNat * 2 ^ flagPosition .z
    + f.nz.toNat * 2 ^ flagPosition .nz + f.ev.toNat * 2 ^ flagPosition .ev + f.od.toNat * 2 ^ flagPosition .od)

/-- A flag set in an 8-bit container: "bits 7:6 are 0" (10_state.md R31, D3). -/
def FlagSet.container (f : FlagSet) : Byte := f.bits.zeroExtend 8

/-- The flag set a 6-bit value stands for in R31's layout. -/
def FlagSet.ofBits (v : BitVec 6) : FlagSet :=
  { c := v.getLsbD (flagPosition .c)
    nc := v.getLsbD (flagPosition .nc)
    z := v.getLsbD (flagPosition .z)
    nz := v.getLsbD (flagPosition .nz)
    ev := v.getLsbD (flagPosition .ev)
    od := v.getLsbD (flagPosition .od) }

/-- The shorthand of 00_scope.md R14: the primaries given, each complement the opposite of its primary. -/
def FlagSet.ofPrimaries (c z ev : Bool) : FlagSet :=
  { c := c, nc := !c, z := z, nz := !z, ev := ev, od := !ev }

/-- "Exactly one flag from each pair is set" (10_state.md R32). -/
abbrev FlagSet.complementary (f : FlagSet) : Prop := f.nc = !f.c ∧ f.nz = !f.z ∧ f.od = !f.ev

end Sys2Proof.Machine
end

