-- ==== Sys2Proof/Machine/Ops.lean ====
section
/-! DEFINITION. The named operations: storage of the cells, ending a transaction with a response or an error, the checks a
transaction meets, and the port. -/

namespace Sys2Proof.Machine

/-! ### Cell storage (10_state.md R21, R27; 20_memory.md R50) -/

/-- What an unlisted index reads as: cells are "initialized to 0" (43_register_file.md R161), so a valid cell that nothing
has written holds 0 (10_state.md R27). -/
def Memory.blank : Byte := 0

/-- The stored cell at an index. -/
def Memory.read : Memory → Nat → Byte
  | [], _ => Memory.blank
  | (k, v) :: m, i => if k = i then v else Memory.read m i

/-- Put an entry in its place, replacing the one there. -/
def Memory.insert : Memory → Nat → Byte → Memory
  | [], i, v => [(i, v)]
  | (k, w) :: m, i, v =>
    if i < k then (i, v) :: (k, w) :: m
    else if i = k then (i, v) :: m
    else (k, w) :: Memory.insert m i v

/-- Drop the entry of an index. -/
def Memory.erase (m : Memory) (i : Nat) : Memory := m.filter fun e => e.1 ≠ i

/-- Set the cell at an index; setting it to the blank value drops its entry, so the form stays canonical. -/
def Memory.write (m : Memory) (i : Nat) (v : Byte) : Memory :=
  if v = Memory.blank then m.erase i else m.insert i v

/-- Set every index below `size`, but index 0 if `keepZero`, to 0 (the loop of 43_register_file.md R165). -/
def Memory.clearBelow (m : Memory) (size : Nat) (keepZero : Bool) : Memory :=
  m.filter fun e => decide (size ≤ e.1) || (keepZero && decide (e.1 = 0))

/-- The canonical form: indices strictly rising, no entry at the blank value. -/
abbrev Memory.wf (m : Memory) : Prop :=
  List.Pairwise (fun x y : Host.Cell => x.1 < y.1) m ∧ ∀ e ∈ m, e.2 ≠ Memory.blank

/-! ### Ending a transaction -/

/-- The numeric status codes (00_scope.md R9, 60_exceptions.md R200): the spec's decision D6 (UNVERIFIED, log 3). -/
def Err.code : Err → Nat
  | .notConfigured => 1
  | .notCreated => 2
  | .alreadyConfigured => 3
  | .alreadyCreated => 4
  | .addressOutOfRange _ _ => 5

/-- The status every response carries (30_encoding.md R78); OK is 0. -/
def Response.status : Response → Nat
  | .ok _ => 0
  | .err e => e.code

/-- Record a response (D23). -/
def State.record (s : State) (r : Response) : State := { s with responses := r :: s.responses }

/-- The same machine with another CORE state. -/
def State.withCore (s : State) (c : CoreState) : State := { s with core := c }

/-- The same machine with another ALU state. -/
def State.withAlu (s : State) (a : Alu) : State := s.withCore { s.core with alu := a }

/-- The same machine with another register file. -/
def State.withRf (s : State) (rf : RegFile) : State := s.withCore { s.core with rf := rf }

/-- "`respond ok(payload)` ends the transaction successfully with that payload." (00_scope.md R13) -/
def respond (p : Payload) (s : State) : Result := .next (s.record (.ok p))

/-- Error entry, for every error of every transaction: the error is the response (60_exceptions.md R205), no state is
written (R203), except that under `halt` the erroring transaction sets `halted` (R206). Nothing is saved, no mode changes and
control goes nowhere, so there is no return from an error: "No return-from-trap transaction exists, and nothing is restored,
because nothing was saved." (R205) -/
def raise (e : Err) (s : State) : Result :=
  match s.errorPolicy with
  | .ret => .next (s.record (.err e))
  | .halt => .next ((s.withCore { s.core with halted := true }).record (.err e))

/-! ### The checks of a transaction, in the order of 60_exceptions.md R207 -/

/-- "While `halted` is true, no transaction has a step" (R206): the first check of every transaction. -/
def unlessHalted (s : State) (k : Result) : Result :=
  if s.core.halted then .fault .halted else k

/-- `execute` "while `alu.configured = false`" raises NotConfigured (40_alu_control.md R101). -/
def whenConfigured (s : State) (k : Result) : Result :=
  if s.core.alu.configured then k else raise .notConfigured s

/-- A register-file transaction other than `create` on an uncreated file raises NotCreated (60_exceptions.md R200). -/
def whenCreated (s : State) (k : Result) : Result :=
  if s.core.rf.created then k else raise .notCreated s

/-! ### The port -/

/-- Destroy the block and construct it again: CORE's state as after reset (70_reset_and_hazards.md R230). The error policy
is a parameter of the model and the record of responses the observer's, so both stay (log 16). -/
def State.construct (s : State) : State := s.withCore CoreState.reset

/-- The same machine with another list of inputs. -/
def State.withInputs (s : State) (l : List Input) : State := { s with inputs := l }

/-- Present a request to the port, before anything already waiting. -/
def State.present (s : State) (r : Request) : State := s.withInputs (.request r :: s.inputs)

/-- Present the request of a bit pattern of spec/opcode_table.json (nothing, if it is no row's). -/
def State.presentTableWord (s : State) (nbits w : Nat) : State :=
  match tableRequest nbits w with
  | none => s
  | some r => s.present r

/-- The configuration fields, "visible to the orchestrator as read-only state" (10_state.md R39; D25, log 26). -/
structure ConfigOutputs where
  aluLatency : Option Latency
  size : Option Byte
  reserveZero : Option Bool
  readLatency : Option Latency
  writeLatency : Option Latency
  deriving DecidableEq, Repr

/-- The read-only configuration outputs of R39. DESIGN CHOICE (log 26): they are readable in a halted core too, of which the spec
says nothing (91_not_in_source.md N16). -/
def State.configOutputs (s : State) : ConfigOutputs :=
  { aluLatency := s.core.alu.latency
    size := s.core.rf.size
    reserveZero := s.core.rf.reserveZero
    readLatency := s.core.rf.readLatency
    writeLatency := s.core.rf.writeLatency }

end Sys2Proof.Machine
end

