-- ==== Sys2Proof/Machine/Operands.lean ====
section
/-! DEFINITION. The operand forms: the adder's second operand and carry-in, chosen by the opcode alone (41_alu_arithmetic.md
R120), and the register cells as transactions address them (10_state.md R21 to R23, 20_memory.md R50). -/

namespace Sys2Proof.Machine

/-! ### The adder's operands -/

/-- Whether the adder complements B: the invert column of 30_encoding.md R71. -/
def invert : ArithOp → Bool
  | .add => false
  | .adc => false
  | .sub => true
  | .sbc => true

/-- The carry-in: "1 for ADC and SUB, 0 for ADD and SBC" (41_alu_arithmetic.md R120, 90_conflicts.md C1). A constant of the
opcode, never an earlier Carry flag (10_state.md R33). -/
def carryIn : ArithOp → Nat
  | .add => 0
  | .adc => 1
  | .sub => 1
  | .sbc => 0

/-- "`B' = invert ? (~B) : B`" (R120). -/
def addend (m : ArithOp) (b : Byte) : Byte := if invert m then ~~~b else b

/-! ### The register cells -/

/-- N, the number of cells. A file without a size has none; that is a state no run reaches with the file created (log 20). -/
def RegFile.sizeByte (rf : RegFile) : Byte := rf.size.getD 0

/-- Index 0 is hard-wired to zero when the zero-register option is set; "no other index is ever reserved" (10_state.md R22). -/
def RegFile.reserved (rf : RegFile) (addr : Byte) : Bool := rf.reserveZero.getD false && decide (addr = 0)

/-- The bounds check: indices `0..size-1` are valid (20_memory.md R50, R57). -/
def RegFile.inRange (rf : RegFile) (addr : Byte) : Bool := decide (addr.toNat < rf.sizeByte.toNat)

/-- The one read of a cell: the stored cell, but "every read from index 0 returns 0" at a reserved cell 0 (10_state.md R22,
43_register_file.md R163; log 15). -/
def RegFile.readCell (rf : RegFile) (addr : Byte) : Byte :=
  if rf.reserved addr then 0 else rf.cell.read addr.toNat

/-- The one write of a cell: "every write to index 0 is silently discarded" at a reserved cell 0 (10_state.md R22,
43_register_file.md R162). -/
def RegFile.writeCell (rf : RegFile) (addr v : Byte) : RegFile :=
  if rf.reserved addr then rf else { rf with cell := rf.cell.write addr.toNat v }

/-- Every non-reserved cell set to 0, the configuration kept (43_register_file.md R165). -/
def RegFile.clearCells (rf : RegFile) : RegFile :=
  { rf with cell := rf.cell.clearBelow rf.sizeByte.toNat (rf.reserveZero.getD false) }

/-- The cells in ascending index order, exactly `size` of them (43_register_file.md R166; D10, log 7). -/
def RegFile.listCells (rf : RegFile) : List (Byte × Byte) :=
  (List.range rf.sizeByte.toNat).map fun i => (BitVec.ofNat 8 i, rf.readCell (BitVec.ofNat 8 i))

/-- `addr >= size` raises `AddressOutOfRange(addr, size)` (20_memory.md R50, 43_register_file.md R162 to R164). -/
def whenInRange (addr : Byte) (s : State) (k : Result) : Result :=
  if s.core.rf.inRange addr then k else raise (.addressOutOfRange addr s.core.rf.sizeByte) s

end Sys2Proof.Machine
end

