-- ==== Sys2Proof/Machine/Execute.lean ====
section
/-! DEFINITION. The common part of `execute` (40_alu_control.md R101, R102, R107). -/

namespace Sys2Proof.Machine

/-- Deliver a computed ExecutionResult: NotConfigured before `configure` (R101); else `alu.last` is overwritten, nothing
else is written (R107), and the result and flags are the response (R102). -/
def execute (r : ExecResult) (s : State) : Result :=
  unlessHalted s (whenConfigured s (respond (.result r) (s.withAlu { s.core.alu with last := some r })))

end Sys2Proof.Machine
end

