-- ==== Sys2Proof/Machine/Arithmetic.lean ====
section
/-! DEFINITION. The arithmetic group (41_alu_arithmetic.md R120 to R126): one adder with an input inverter and a carry-in. -/

namespace Sys2Proof.Machine

/-- "`wide = A + B' + carry_in` computed in a width wider than 8 bits" (R120): a natural number, 0..511. -/
def wideSum (m : ArithOp) (a b : Byte) : Nat := a.toNat + (addend m b).toNat + carryIn m

/-- The adder (R120): "`result = wide & 0xFF`; `carry_out = bit 8 of wide`", and the Carry flag is that carry-out, "not
inverted for subtraction" (R121). -/
def arith (m : ArithOp) (a b : Byte) : Byte × Bool :=
  (BitVec.ofNat 8 (wideSum m a b), (wideSum m a b).testBit 8)

/-- An arithmetic opcode's `execute`. -/
def executeArith (m : ArithOp) (a b : Byte) (s : State) : Result :=
  execute (mkResult (arith m a b).1 (arith m a b).2) s

/-- ADD: `A + B` (R122). -/
def execAdd (a b : Byte) (s : State) : Result := executeArith .add a b s

/-- ADC: `A + B + 1`, the carry-in always 1 (R123). -/
def execAdc (a b : Byte) (s : State) : Result := executeArith .adc a b s

/-- SUB: `A + ~B + 1` (R124). -/
def execSub (a b : Byte) (s : State) : Result := executeArith .sub a b s

/-- SBC: `A + ~B`, the carry-in always 0 (R125). -/
def execSbc (a b : Byte) (s : State) : Result := executeArith .sbc a b s

end Sys2Proof.Machine
end

