-- ==== Sys2Proof/Machine/Logic.lean ====
section
/-! DEFINITION. The logic group (42_alu_logic.md R140 to R144); its carry is the constant 0 (R140). -/

namespace Sys2Proof.Machine

/-- The logic functions of R140. -/
def logic : LogicOp → Byte → Byte → Byte
  | .nor, a, b => ~~~(a ||| b)
  | .and, a, b => a &&& b
  | .xor, a, b => a ^^^ b
  | .rsh, a, b => (a ||| b) >>> 1

/-- A logic opcode's `execute`: "always report the 'not-carry' flag" (R140). -/
def executeLogic (m : LogicOp) (a b : Byte) (s : State) : Result :=
  execute (mkResult (logic m a b) false) s

/-- NOR: "bitwise NOT of (A OR B)" (R141). -/
def execNor (a b : Byte) (s : State) : Result := executeLogic .nor a b s

/-- AND: "bitwise AND" (R142). -/
def execAnd (a b : Byte) (s : State) : Result := executeLogic .and a b s

/-- XOR: "bitwise XOR" (R143). -/
def execXor (a b : Byte) (s : State) : Result := executeLogic .xor a b s

/-- RSH: "logical right-shift by 1 of (A OR B)"; the bit shifted out is not reported (R144). -/
def execRsh (a b : Byte) (s : State) : Result := executeLogic .rsh a b s

end Sys2Proof.Machine
end

