-- ==== Sys2Proof/Machine/AluControl.lean ====
section
/-! DEFINITION. The ALU's transactions `configure`, `execute` and `last` (40_alu_control.md R100 to R108). -/

namespace Sys2Proof.Machine

/-- `configure(latency)` (R100): once; a second call raises AlreadyConfigured and leaves the prior state. -/
def execAluConfigure (lat : Latency) (s : State) : Result :=
  unlessHalted s
    (if s.core.alu.configured then raise .alreadyConfigured s
     else respond .none (s.withAlu { s.core.alu with configured := true, latency := some lat }))

/-- What the ALU computes for an opcode: the group's result and carry (R103), and the flags of R104. -/
def compute : Opcode → Byte → Byte → ExecResult
  | .arith m, a, b => mkResult (arith m a b).1 (arith m a b).2
  | .logic m, a, b => mkResult (logic m a b) false

/-- `execute(A, B, op)` (R102): the operation is the one the 3-bit opcode names (30_encoding.md R71). -/
def execAluExecute (a b : Byte) (op : BitVec 3) (s : State) : Result :=
  execute (compute (Opcode.ofCode op) a b) s

/-- `last()` (R108): the most recent result, or none; no precondition and no error (D8, D9; log 8). -/
def execAluLast (s : State) : Result :=
  unlessHalted s (respond (.last s.core.alu.last) s)

end Sys2Proof.Machine
end

