-- ==== Sys2Proof/Machine/RegisterFile.lean ====
section
/-! DEFINITION. The register file's transactions (43_register_file.md R160 to R169). -/

namespace Sys2Proof.Machine

/-- `create(size, reserve_zero, read_latency, write_latency)` (R160, R161): once; every size is accepted (D13, log 9); every
cell 0; a second call raises AlreadyCreated and leaves the prior state. -/
def execRfCreate (size : Byte) (rz : Bool) (rl wl : Latency) (s : State) : Result :=
  unlessHalted s
    (if s.core.rf.created then raise .alreadyCreated s
     else respond .none (s.withRf
       { created := true, size := some size, reserveZero := some rz, readLatency := some rl, writeLatency := some wl,
         cell := [] }))

/-- `write(addr, value)` (R162): at a reserved cell 0 the write is discarded, with the notice; else the cell is set. -/
def execRfWrite (addr v : Byte) (s : State) : Result :=
  unlessHalted s (whenCreated s (whenInRange addr s
    (respond (.notice (s.core.rf.reserved addr)) (s.withRf (s.core.rf.writeCell addr v)))))

/-- `read(addr)` (R163). -/
def execRfRead (addr : Byte) (s : State) : Result :=
  unlessHalted s (whenCreated s (whenInRange addr s (respond (.value (s.core.rf.readCell addr)) s)))

/-- `read_pair(addr_a, addr_b)` (R164): `addr_a` is checked first (D7, log 6); both values come from one state (20_memory.md R55). -/
def execRfReadPair (a b : Byte) (s : State) : Result :=
  unlessHalted s (whenCreated s (whenInRange a s (whenInRange b s
    (respond (.pair (s.core.rf.readCell a) (s.core.rf.readCell b)) s))))

/-- `clear()` (R165): every non-reserved cell to 0, the configuration and the ALU untouched. -/
def execRfClear (s : State) : Result :=
  unlessHalted s (whenCreated s (respond .none (s.withRf s.core.rf.clearCells)))

/-- `dump()` (R166): every cell with its index, ascending. -/
def execRfDump (s : State) : Result :=
  unlessHalted s (whenCreated s (respond (.cells s.core.rf.listCells) s))

end Sys2Proof.Machine
end

