-- ==== Sys2Proof/Machine/Dispatch.lean ====
section
/-! DEFINITION. One arm per instruction. -/

namespace Sys2Proof.Machine

/-- The meaning of each instruction. -/
def exec (i : Instr) (s : State) : Host.Outcome State Fault Refusal :=
  match i with
  | .add a b => Sys2Proof.Machine.execAdd a b s
  | .adc a b => Sys2Proof.Machine.execAdc a b s
  | .sub a b => Sys2Proof.Machine.execSub a b s
  | .sbc a b => Sys2Proof.Machine.execSbc a b s
  | .nor a b => Sys2Proof.Machine.execNor a b s
  | .and a b => Sys2Proof.Machine.execAnd a b s
  | .xor a b => Sys2Proof.Machine.execXor a b s
  | .rsh a b => Sys2Proof.Machine.execRsh a b s
  | .aluConfigure lat => Sys2Proof.Machine.execAluConfigure lat s
  | .aluExecute a b op => Sys2Proof.Machine.execAluExecute a b op s
  | .aluLast => Sys2Proof.Machine.execAluLast s
  | .rfCreate size rz rl wl => Sys2Proof.Machine.execRfCreate size rz rl wl s
  | .rfWrite addr v => Sys2Proof.Machine.execRfWrite addr v s
  | .rfRead addr => Sys2Proof.Machine.execRfRead addr s
  | .rfReadPair a b => Sys2Proof.Machine.execRfReadPair a b s
  | .rfClear => Sys2Proof.Machine.execRfClear s
  | .rfDump => Sys2Proof.Machine.execRfDump s

end Sys2Proof.Machine
end

