-- ==== Sys2Proof/Machine/Step.lean ====
section
/-! DEFINITION. One step: the next input is taken from the port. A request is decoded and its transaction performed whole
(20_memory.md R53); a reset constructs the block again (70_reset_and_hazards.md R230). -/

namespace Sys2Proof.Machine

/-- One step of the machine. DESIGN CHOICE (log 17, 18): overlapping requests and an unused selector are refused without a look
at `halted`, which each transaction checks first (60_exceptions.md R207). -/
def step (s : State) : Host.Outcome State Fault Refusal :=
  match s.inputs with
  | [] => .refused .noRequest
  | .reset :: rest => .next (s.withInputs rest).construct
  | .overlapping _ _ _ :: _ => .refused .overlapping
  | .request r :: rest =>
    match decode r with
    | .error (.noTransaction sel) => .refused (.noTransaction sel)
    | .ok i => exec i (s.withInputs rest)

/-- `s` with the request of a bit pattern of spec/opcode_table.json presented first, so that the next step takes it. -/
def State.withFetchWord (s : State) (nbits w : Nat) : State := s.presentTableWord nbits w

end Sys2Proof.Machine
end

