-- ==== Sys2Proof/Machine/Assembler.lean ====
section
/-! DEFINITION. The text of a script line (30_encoding.md R79, 44_orchestration.md R191, R194), read into a `Line`. The
notation is the spec's own (D15) and "has no behaviour of CORE"; what R79 leaves open of its spelling is log 23. -/

namespace Sys2Proof.Machine

/-- A digit's value in bases up to 16. -/
def digitValue (c : Char) : Option Nat :=
  if '0' ≤ c ∧ c ≤ '9' then some (c.toNat - '0'.toNat)
  else if 'a' ≤ c ∧ c ≤ 'f' then some (c.toNat - 'a'.toNat + 10)
  else if 'A' ≤ c ∧ c ≤ 'F' then some (c.toNat - 'A'.toNat + 10)
  else none

/-- The digits of a number in a base, most significant first. -/
def digitsValue (base : Nat) : Nat → List Char → Option Nat
  | acc, [] => some acc
  | acc, c :: rest =>
    match digitValue c with
    | some d => if d < base then digitsValue base (acc * base + d) rest else none
    | none => none

/-- "Numbers are decimal, `0x` hex or `0b` binary." (R79) -/
def parseNat : List Char → Option Nat
  | [] => none
  | ['0', 'x'] => none
  | ['0', 'b'] => none
  | '0' :: 'x' :: rest => digitsValue 16 0 rest
  | '0' :: 'b' :: rest => digitsValue 2 0 rest
  | cs => digitsValue 10 0 cs

/-- An 8-bit number: a larger one "cannot be encoded" (95_test_vectors.md E10; R73). -/
def parseByte (cs : List Char) : Option Byte :=
  match parseNat cs with
  | some n => if n < 256 then some (BitVec.ofNat 8 n) else none
  | none => none

/-- `r<i>` is register index i (R79, 10_state.md R24). -/
def parseReg : List Char → Option Byte
  | 'r' :: cs => parseByte cs
  | _ => none

/-- A latency value: any number is accepted (D12), and which value it stands for is open (log 5). -/
def parseLatency (cs : List Char) : Option Latency := (parseNat cs).map Config.latencyOf

/-- The eight mnemonics (R79). -/
def parseOpcode (s : List Char) : Option Opcode :=
  if s = ['A', 'D', 'D'] then some (.arith .add)
  else if s = ['A', 'D', 'C'] then some (.arith .adc)
  else if s = ['S', 'U', 'B'] then some (.arith .sub)
  else if s = ['S', 'B', 'C'] then some (.arith .sbc)
  else if s = ['N', 'O', 'R'] then some (.logic .nor)
  else if s = ['A', 'N', 'D'] then some (.logic .and)
  else if s = ['X', 'O', 'R'] then some (.logic .xor)
  else if s = ['R', 'S', 'H'] then some (.logic .rsh)
  else none

/-- The six flag names (R194). -/
def parseFlag (s : List Char) : Option Flag :=
  if s = ['C'] then some .c
  else if s = ['N', 'C'] then some .nc
  else if s = ['Z'] then some .z
  else if s = ['N', 'Z'] then some .nz
  else if s = ['E', 'V'] then some .ev
  else if s = ['O', 'D'] then some .od
  else none

/-- A source: `r<i>` or `#<value>` (R79, R191). -/
def parseSource : List Char → Option Source
  | '#' :: cs => (parseByte cs).map .imm
  | cs => (parseReg cs).map .reg

/-- A destination: `r<i>`, or `-` for none (R79, R191). -/
def parseDest (s : List Char) : Option (Option Byte) :=
  if s = ['-'] then some none else (parseReg s).map some

/-- `zero` or `nozero`, the zero-register option of `rf.create` (R79). -/
def parseZero (s : List Char) : Option Bool :=
  if s = "zero".toList then some true else if s = "nozero".toList then some false else none

/-- Close the word being read, given reversed. -/
def closeWord (cur : List Char) (rest : List (List Char)) : List (List Char) :=
  if cur = [] then rest else cur.reverse :: rest

/-- Split a line into words and commas; "`;` begins a comment" (R79). -/
def tokens : List Char → List Char → List (List Char)
  | cur, [] => closeWord cur []
  | cur, c :: rest =>
    if c = ';' then closeWord cur []
    else if c = ',' then closeWord cur ([','] :: tokens [] rest)
    else if c.isWhitespace then closeWord cur (tokens [] rest)
    else tokens (c :: cur) rest

/-- The operands of a line: words separated by single commas. -/
def operands : List (List Char) → Option (List (List Char))
  | [] => some []
  | [x] => if x = [','] then none else some [x]
  | x :: c :: rest =>
    if x = [','] then none
    else if c = [','] then
      match operands rest with
      | some (y :: ys) => some (x :: y :: ys)
      | _ => none
    else none

/-- A transaction line (R79), by its name and operands. -/
def parseTransaction (name : List Char) (args : List (List Char)) : Option Instr :=
  match args with
  | [] =>
    if name = "alu.last".toList then some .aluLast
    else if name = "rf.clear".toList then some .rfClear
    else if name = "rf.dump".toList then some .rfDump
    else none
  | [x] =>
    if name = "alu.configure".toList then (parseLatency x).map .aluConfigure
    else if name = "rf.read".toList then (parseReg x).map .rfRead
    else none
  | [x, y] =>
    if name = "rf.write".toList then
      match parseReg x, parseByte y with
      | some i, some v => some (.rfWrite i v)
      | _, _ => none
    else if name = "rf.read_pair".toList then
      match parseReg x, parseReg y with
      | some i, some j => some (.rfReadPair i j)
      | _, _ => none
    else none
  | [x, y, z] =>
    if name = "alu.execute".toList then
      match parseOpcode x, parseByte y, parseByte z with
      | some m, some a, some b => some (.aluExecute a b m.code)
      | _, _, _ => none
    else none
  | [x, y, z, w] =>
    if name = "rf.create".toList then
      match parseByte x, parseZero y, parseLatency z, parseLatency w with
      | some n, some rz, some rl, some wl => some (.rfCreate n rz rl wl)
      | _, _, _, _ => none
    else none
  | _ => none

/-- A pseudo-instruction `<MNEMONIC> <dst>, <srcA>, <srcB>` (R79, R191). -/
def parsePseudo (name : List Char) (args : List (List Char)) : Option Pseudo :=
  match args with
  | [d, a, b] =>
    match parseOpcode name, parseDest d, parseSource a, parseSource b with
    | some m, some dst, some sa, some sb => some { op := m, dst := dst, srcA := sa, srcB := sb }
    | _, _, _, _ => none
  | _ => none

/-- A line that makes the orchestrator issue something. -/
def parseAction : List (List Char) → Option Action
  | [] => none
  | name :: rest =>
    match operands rest with
    | none => none
    | some args =>
      match parsePseudo name args with
      | some p => some (.pseudo p)
      | none => (parseTransaction name args).map .transaction

/-- The words before and after the first `else`. -/
def splitElse : List (List Char) → List (List Char) × Option (List (List Char))
  | [] => ([], none)
  | w :: rest =>
    if w = "else".toList then ([], some rest) else (w :: (splitElse rest).1, (splitElse rest).2)

/-- `<label>:` as one word, the name before its colon. -/
def parseLabel (w : List Char) : Option (List Char) :=
  match w.reverse with
  | ':' :: c :: cs => some (c :: cs).reverse
  | _ => none

/-- The words of a line after `if <F>` (R194). -/
def parseIf (f : Flag) : List (List Char) → Option Line
  | [] => none
  | w :: rest =>
    if w = "goto".toList then
      match rest with
      | [name] => some (.ifGoto f (String.ofList name))
      | _ => none
    else if w = "then".toList then
      match splitElse rest with
      | (yes, none) => (parseAction yes).map fun x => .ifThen f x none
      | (yes, some no) =>
        match parseAction yes, parseAction no with
        | some x, some y => some (.ifThen f x (some y))
        | _, _ => none
    else none

/-- One script line's text (R79, R194); a line that is none of the forms is refused. DESIGN CHOICE (log 23): so is a line that
is empty or holds only a comment, of which R79 does not speak. -/
def parseLine (text : List Char) : Option Line :=
  match tokens [] text with
  | [] => none
  | [w] =>
    match parseLabel w with
    | some name => some (.label (String.ofList name))
    | none => (parseAction [w]).map .act
  | w :: f :: rest =>
    if w = "if".toList then
      match parseFlag f with
      | some fl => parseIf fl rest
      | none => none
    else (parseAction (w :: f :: rest)).map .act

end Sys2Proof.Machine
end

