-- ==== Sys2Proof/Machine/Orchestrator.lean ====
section
/-! DEFINITION. The orchestrator's scripts (44_orchestration.md R190 to R194): a layer outside CORE that only issues
transactions and reads their responses. "CORE performs only the transactions the orchestrator issues." (R194) -/

namespace Sys2Proof.Machine

/-- The orchestrator beside its CORE: the flag set of the most recent successful `execute` response it received (R194), and
the script line it is at. -/
structure Orch where
  machine : State
  flags : Option FlagSet
  line : Nat
  deriving DecidableEq, Repr

/-- Why the orchestrator goes no further. -/
inductive Stop where
  /-- A transaction had no step: the core is halted (60_exceptions.md R206). -/
  | fault (f : Fault)
  /-- A transaction was refused. -/
  | refused (r : Refusal)
  /-- A line asks for a flag before any successful `execute` (R194 gives it no value; log 19). -/
  | noFlags
  /-- A `goto` names a label the script does not define. -/
  | noLabel (name : String)
  /-- The line is past the script's last. -/
  | endOfScript
  /-- A transaction left no response recorded. No transaction does so: every step records one (30_encoding.md R78). -/
  | noResponse
  deriving DecidableEq, Repr

/-- The flag set kept after a response: a successful `execute` replaces it, nothing else does (R194). -/
def flagsAfter (r : Response) (old : Option FlagSet) : Option FlagSet :=
  match r with
  | .ok (.result x) => some x.flags
  | _ => old

/-- Issue one transaction and receive its response, the newest one recorded. -/
def issue (i : Instr) (o : Orch) : Except Stop (Response × Orch) :=
  match exec i o.machine with
  | .fault f => .error (.fault f)
  | .refused r => .error (.refused r)
  | .next t =>
    match t.responses with
    | [] => .error .noResponse
    | r :: _ => .ok (r, { o with machine := t, flags := flagsAfter r o.flags })

/-- Read the sources of a pseudo-instruction: "reads zero, one, or two registers" (R190), by R191's table of forms. No pair
of values is answered when the read raised an error. -/
def readSources (a b : Source) (o : Orch) : Except Stop (Option (Byte × Byte) × Orch) :=
  match a, b with
  | .reg ra, .reg rb =>
    match issue (.rfReadPair ra rb) o with
    | .error e => .error e
    | .ok (.ok (.pair va vb), o') => .ok (some (va, vb), o')
    | .ok (_, o') => .ok (none, o')
  | .reg ra, .imm k =>
    match issue (.rfRead ra) o with
    | .error e => .error e
    | .ok (.ok (.value va), o') => .ok (some (va, k), o')
    | .ok (_, o') => .ok (none, o')
  | .imm j, .reg rb =>
    match issue (.rfRead rb) o with
    | .error e => .error e
    | .ok (.ok (.value vb), o') => .ok (some (j, vb), o')
    | .ok (_, o') => .ok (none, o')
  | .imm j, .imm k => .ok (some (j, k), o)

/-- The optional write-back of a pseudo-instruction (R191). -/
def writeBack (dst : Option Byte) (v : Byte) (o : Orch) : Except Stop Orch :=
  match dst with
  | none => .ok o
  | some d =>
    match issue (.rfWrite d v) o with
    | .error e => .error e
    | .ok (_, o') => .ok o'

/-- A pseudo-instruction's expansion (R191): the reads, one `alu.execute`, the optional write-back. "If any transaction of an
expansion raises an error, the orchestrator issues none of the later ones." -/
def runPseudo (p : Pseudo) (o : Orch) : Except Stop Orch :=
  match readSources p.srcA p.srcB o with
  | .error e => .error e
  | .ok (none, o1) => .ok o1
  | .ok (some v, o1) =>
    match issue (.aluExecute v.1 v.2 p.op.code) o1 with
    | .error e => .error e
    | .ok (.ok (.result r), o2) => writeBack p.dst r.result o2
    | .ok (_, o2) => .ok o2

/-- A line's action (R79). -/
def runAction (x : Action) (o : Orch) : Except Stop Orch :=
  match x with
  | .pseudo p => runPseudo p o
  | .transaction i =>
    match issue i o with
    | .error e => .error e
    | .ok (_, o') => .ok o'

/-- The same orchestrator at another line. -/
def Orch.goto (o : Orch) (n : Nat) : Orch := { o with line := n }

/-- Perform an action and go on at the next line; after an error response too (60_exceptions.md R205; log 19). -/
def runThenNext (x : Action) (o : Orch) : Except Stop Orch :=
  match runAction x o with
  | .error e => .error e
  | .ok o' => .ok (o'.goto (o.line + 1))

/-- The line a label stands on; it "names the next line" (R194), and a label's own line does nothing.
DESIGN CHOICE (log 19): of a label that stands twice, of which R194 does not speak, the first is taken. -/
def labelLine (script : List Line) (name : String) : Option Nat :=
  script.findIdx? fun l => decide (l = .label name)

/-- One script line (R194). DESIGN CHOICE (log 19): a label on the script's last line, of whose missing "next line" R194 does
not speak, is followed by the script's end, for a `goto` to it too. -/
def scriptStep (script : List Line) (o : Orch) : Except Stop Orch :=
  match script[o.line]? with
  | none => .error .endOfScript
  | some (.label _) => .ok (o.goto (o.line + 1))
  | some (.act x) => runThenNext x o
  | some (.ifThen f yes no) =>
    match o.flags with
    | none => .error .noFlags
    | some fl =>
      if fl.get f then runThenNext yes o
      else
        match no with
        | none => .ok (o.goto (o.line + 1))
        | some x => runThenNext x o
  | some (.ifGoto f name) =>
    match o.flags with
    | none => .error .noFlags
    | some fl =>
      if fl.get f then
        match labelLine script name with
        | none => .error (.noLabel name)
        | some n => .ok (o.goto n)
      else .ok (o.goto (o.line + 1))

/-- At most `fuel` lines of a script: "A loop written with them terminates only if the orchestrator's data make it so." (R194) -/
def runScript (script : List Line) : Nat → Orch → Except Stop Orch
  | 0, o => .ok o
  | fuel + 1, o =>
    match scriptStep script o with
    | .error .endOfScript => .ok o
    | .error e => .error e
    | .ok o' => runScript script fuel o'

/-! ### Multi-byte arithmetic (R193) -/

/-- The two chains of R193's table. -/
inductive Chain where
  | add | subtract
  deriving DecidableEq, Repr

/-- The opcode R193 chooses for a byte: for byte 0 there is no earlier carry. -/
def chainOpcode : Chain → Option Bool → ArithOp
  | .add, none => .add
  | .add, some true => .adc
  | .add, some false => .add
  | .subtract, none => .sub
  | .subtract, some true => .sub
  | .subtract, some false => .sbc

/-- The chain over byte pairs, low byte first: the result bytes and the last carry, given the carry so far. -/
def runChain (k : Chain) : Option Bool → List (Byte × Byte) → List Byte × Option Bool
  | c, [] => ([], c)
  | c, (a, b) :: rest =>
    ((arith (chainOpcode k c) a b).1 :: (runChain k (some (arith (chainOpcode k c) a b).2) rest).1,
      (runChain k (some (arith (chainOpcode k c) a b).2) rest).2)

/-- The number a list of bytes stands for, low byte first (20_memory.md R51: the orchestrator chooses; D16). -/
def bytesToNat : List Byte → Nat
  | [] => 0
  | b :: rest => b.toNat + 256 * bytesToNat rest

end Sys2Proof.Machine
end

