-- ==== Sys2Proof/Machine/Timing.lean ====
section
/-! DEFINITION. The informative timing table of 70_reset_and_hazards.md R241: which advisory latency a transaction that
succeeds consumes. "No rule of the model depends on it": no step reads this function, and nothing waits (log 21). -/

namespace Sys2Proof.Machine

/-- An entry of R241's table. -/
inductive Advisory where
  /-- The source states that no latency is consumed, or the transaction is the spec's own with none. -/
  | noLatency
  /-- The source states nothing (91_not_in_source.md N7, I8: any value). -/
  | notStated
  /-- The configured latency, consumed once. -/
  | once (l : Option Latency)
  deriving DecidableEq, Repr

/-- The latency a successful transaction consumes (R241). Whether a failing one consumes any is not stated (N7, N20). -/
def advisoryLatency (i : Instr) (s : State) : Advisory :=
  match i with
  | .add _ _ | .adc _ _ | .sub _ _ | .sbc _ _ | .nor _ _ | .and _ _ | .xor _ _ | .rsh _ _ => .once s.core.alu.latency
  | .aluExecute _ _ _ => .once s.core.alu.latency
  | .aluConfigure _ => .notStated
  | .aluLast => .noLatency
  | .rfCreate _ _ _ _ => .notStated
  | .rfWrite _ _ => .once s.core.rf.writeLatency
  | .rfRead _ => .once s.core.rf.readLatency
  | .rfReadPair _ _ => .once s.core.rf.readLatency
  | .rfClear => .notStated
  | .rfDump => .noLatency

end Sys2Proof.Machine
end

