-- ==== Sys2Proof/Safety.lean ====
section
/-! DEFINITION. What counts as a sound state and a safe run, in the terms the statements use. -/

namespace Sys2Proof

/-- The instructions that are an `execute` (the ALU's computing transactions). -/
def Instr.isExecute : Instr → Bool
  | .add _ _ | .adc _ _ | .sub _ _ | .sbc _ _ | .nor _ _ | .and _ _ | .xor _ _ | .rsh _ _ => true
  | .aluExecute _ _ _ => true
  | .aluConfigure _ | .aluLast => false
  | .rfCreate _ _ _ _ | .rfWrite _ _ | .rfRead _ | .rfReadPair _ _ | .rfClear | .rfDump => false

/-- The instructions of the ALU; the others are the register file's (selector bit 3, 30_encoding.md R76). -/
def Instr.isAlu : Instr → Bool
  | .add _ _ | .adc _ _ | .sub _ _ | .sbc _ _ | .nor _ _ | .and _ _ | .xor _ _ | .rsh _ _ => true
  | .aluExecute _ _ _ | .aluConfigure _ | .aluLast => true
  | .rfCreate _ _ _ _ | .rfWrite _ _ | .rfRead _ | .rfReadPair _ _ | .rfClear | .rfDump => false

end Sys2Proof

namespace Sys2Proof.Machine

/-- The state a machine starts in under a policy, with inputs presented: CORE as after reset (10_state.md R45). -/
def State.start (policy : ErrorPolicy) (inputs : List Input) : State :=
  { core := CoreState.reset, errorPolicy := policy, inputs := inputs, responses := [] }

/-- The states the machine can be in: started under either policy with any inputs, then any number of steps, with the
outside free to present more inputs at any time. -/
inductive Reachable : State → Prop
  | start (policy : ErrorPolicy) (inputs : List Input) : Reachable (State.start policy inputs)
  | presented (s : State) (more : List Input) : Reachable s → Reachable (s.withInputs more)
  | stepped (s t : State) : Reachable s → step s = .next t → Reachable t

/-- A result carries the flags R104 derives for it from some carry. -/
def ExecResult.sound (r : ExecResult) : Prop := r.flags = mkFlags r.flags.c r.result

/-- A response carries only sound results. -/
def Response.sound : Response → Prop
  | .ok (.result r) => r.sound
  | .ok (.last (some r)) => r.sound
  | .ok _ => True
  | .err _ => True

/-- The ALU's invariant. -/
structure Alu.Inv (a : Alu) : Prop where
  /-- A latency is held exactly when configured (10_state.md R38, R44). -/
  latency : a.latency.isSome = a.configured
  /-- No result before `configure` (R44). -/
  unconfigured : a.configured = false → a.last = none
  /-- The last result carries its own flags (R32, R40). -/
  last : ∀ r, a.last = some r → r.sound

/-- The register file's invariant. -/
structure RegFile.Inv (rf : RegFile) : Prop where
  /-- The configuration is held exactly when created (10_state.md R36, R37). -/
  size : rf.size.isSome = rf.created
  reserveZero : rf.reserveZero.isSome = rf.created
  readLatency : rf.readLatency.isSome = rf.created
  writeLatency : rf.writeLatency.isSome = rf.created
  /-- The cells' storage is canonical. -/
  wf : rf.cell.wf
  /-- Only valid indices are stored (R21). -/
  bounded : ∀ e ∈ rf.cell, e.1 < rf.sizeByte.toNat
  /-- A reserved cell 0 holds 0 (R43). -/
  zero : rf.reserveZero = some true → rf.cell.read 0 = 0

/-- The machine's invariant. -/
structure State.Inv (s : State) : Prop where
  alu : s.core.alu.Inv
  rf : s.core.rf.Inv
  /-- `halted` exists only under ERROR_POLICY = halt (R20, 60_exceptions.md R206). -/
  halted : s.core.halted = true → s.errorPolicy = .halt
  /-- Every response given carries its own flags (R32). -/
  responses : ∀ r ∈ s.responses, r.sound

/-- Whether a response is an error. -/
def Response.isErr : Response → Bool
  | .ok _ => false
  | .err _ => true

/-- A safe run so far: "A claim about a script takes 'no error response' as a premise" (92_eei_decisions.md D23). -/
def State.noErrors (s : State) : Bool := s.responses.all fun r => !r.isErr

/-- A sequence of transactions issued one after the other; none when one of them has no step. -/
def runAll : List Instr → State → Option State
  | [], s => some s
  | i :: rest, s =>
    match exec i s with
    | .next t => runAll rest t
    | .fault _ => none
    | .refused _ => none

end Sys2Proof.Machine
end

