-- ==== Sys2Proof/Certificates/Slice0/Obligations.lean ====
section
/-! DEFINITION. The statements for the provers. Each docstring names the rule it states; where a clause rests on a decision of
the spec (D<n>) or on a log entry, it says so. The selector codes in the `encode` clauses are the spec's decision D14. -/

open Sys2Proof Sys2Proof.Machine

namespace Sys2Proof.Claims

/-- Transaction `i` completes at `s` with response `r` and CORE state `c`; the response is recorded, and the error policy and
the inputs are as before. As a conclusion it says that `exec` answers a next state, and the whole of that state. -/
def Answers (i : Instr) (s : State) (r : Response) (c : CoreState) : Prop :=
  exec i s = .next { core := c, errorPolicy := s.errorPolicy, inputs := s.inputs, responses := r :: s.responses }

/-- Transaction `i` raises `e` at `s`: the error is the response and CORE is as before, except that it is halted under
ERROR_POLICY = halt (60_exceptions.md R203, R206). -/
def Raises (i : Instr) (s : State) (e : Err) : Prop :=
  Answers i s (.err e) { s.core with halted := decide (s.errorPolicy = .halt) }

/-- The flag set of R104 to R106, written out over numbers. -/
def flagsOf (carry : Bool) (result : Byte) : FlagSet :=
  { c := carry
    nc := !carry
    z := decide (result.toNat = 0)
    nz := decide (result.toNat ≠ 0)
    ev := decide (result.toNat % 2 = 0)
    od := decide (result.toNat % 2 = 1) }

/-- What an instruction rule of the ALU says: the request, the effect once configured (result, all six flags, `alu.last`
overwritten and nothing else), and the error before. The request's opcode number is the spec's decision D2 (log 1) and its
format the model's (log 11). -/
def Computes (i : Instr) (op : BitVec 3) (a b : Byte) (result : Nat) (carry : Bool) : Prop :=
  encode i = .opc op a b ∧ result < 256 ∧
  (∀ s : State, s.core.halted = false → s.core.alu.configured = true →
    Answers i s (.ok (.result ⟨BitVec.ofNat 8 result, flagsOf carry (BitVec.ofNat 8 result)⟩))
      { s.core with alu := { s.core.alu with
          last := some ⟨BitVec.ofNat 8 result, flagsOf carry (BitVec.ofNat 8 result)⟩ } }) ∧
  (∀ s : State, s.core.halted = false → s.core.alu.configured = false → Raises i s .notConfigured)

/-- A created register file of size `n` with zero-register option `z`, in a core that is not halted. -/
def Ready (s : State) (n : Byte) (z : Bool) : Prop :=
  s.core.halted = false ∧ s.core.rf.created = true ∧ s.core.rf.size = some n ∧ s.core.rf.reserveZero = some z

/-- The configuration of the register file and the rest of CORE are as before; only cells may differ. -/
def OnlyCellsMayDiffer (c c' : CoreState) : Prop :=
  c'.alu = c.alu ∧ c'.halted = c.halted ∧ c'.rf.created = c.rf.created ∧ c'.rf.size = c.rf.size ∧
  c'.rf.reserveZero = c.rf.reserveZero ∧ c'.rf.readLatency = c.rf.readLatency ∧
  c'.rf.writeLatency = c.rf.writeLatency

/-- `x[i]` of 00_scope.md R12 in a file with zero-register option `z`: 0 at a reserved cell 0, else the stored cell. -/
def cellValue (s : State) (z : Bool) (addr : Byte) : Byte :=
  if z = true ∧ addr = 0 then 0 else s.core.rf.cell.read addr.toNat

/-- The instruction addresses cell `addr` with a bounds check. -/
def Addresses (i : Instr) (addr : Byte) : Prop :=
  (∃ v, i = .rfWrite addr v) ∨ i = .rfRead addr ∨ (∃ b, i = .rfReadPair addr b) ∨ (∃ a, i = .rfReadPair a addr)

/-- A CORE with other latencies wherever it holds any, each chosen by `f`. -/
def relabel (f : Latency → Latency) (c : CoreState) : CoreState :=
  { c with
    alu := { c.alu with latency := c.alu.latency.map f }
    rf := { c.rf with readLatency := c.rf.readLatency.map f, writeLatency := c.rf.writeLatency.map f } }

/-- An instruction with its latency arguments replaced by `f`. -/
def relabelInstr (f : Latency → Latency) : Instr → Instr
  | .add a b => .add a b
  | .adc a b => .adc a b
  | .sub a b => .sub a b
  | .sbc a b => .sbc a b
  | .nor a b => .nor a b
  | .and a b => .and a b
  | .xor a b => .xor a b
  | .rsh a b => .rsh a b
  | .aluConfigure lat => .aluConfigure (f lat)
  | .aluExecute a b op => .aluExecute a b op
  | .aluLast => .aluLast
  | .rfCreate n z rl wl => .rfCreate n z (f rl) (f wl)
  | .rfWrite addr v => .rfWrite addr v
  | .rfRead addr => .rfRead addr
  | .rfReadPair a b => .rfReadPair a b
  | .rfClear => .rfClear
  | .rfDump => .rfDump

/-- What one transaction leaves in cell `addr` of a created file, where the cell read `v`: a `write` to it sets it (unless it is
a reserved cell 0, which reads 0 always), a `clear` makes it 0, nothing else touches it. -/
def leaves (z : Bool) (addr : Byte) (i : Instr) (v : Byte) : Byte :=
  match i with
  | .rfWrite a w => if a = addr ∧ ¬(z = true ∧ addr = 0) then w else v
  | .rfClear => 0
  | .add _ _ | .adc _ _ | .sub _ _ | .sbc _ _ | .nor _ _ | .and _ _ | .xor _ _ | .rsh _ _ => v
  | .aluConfigure _ | .aluExecute _ _ _ | .aluLast | .rfCreate _ _ _ _ | .rfRead _ | .rfReadPair _ _ | .rfDump => v

/-- What a history of transactions leaves in a cell that read `v` (20_memory.md R58). -/
def latest (z : Bool) (addr : Byte) : List Instr → Byte → Byte
  | [], v => v
  | i :: rest, v => latest z addr rest (leaves z addr i v)

/-- The value of a pseudo-instruction's source. -/
def sourceValue (s : State) (z : Bool) : Source → Byte
  | .reg i => cellValue s z i
  | .imm k => k

/-- The register a source reads, if any. -/
def regOf : Source → List Byte
  | .reg i => [i]
  | .imm _ => []

/-- The registers a pseudo-instruction reads, in order (44_orchestration.md R191). -/
def sourceRegs (p : Pseudo) : List Byte := regOf p.srcA ++ regOf p.srcB

/-- What a source reads as through the one read of a cell. -/
def sourceRead (s : State) : Source → Byte
  | .reg i => s.core.rf.readCell i
  | .imm k => k

/-- The register-file access to these indices succeeds: no index at all, or a created file with all of them in range. -/
def AccessSucceeds (s : State) (regs : List Byte) : Prop :=
  ∀ i ∈ regs, s.core.rf.created = true ∧ ∃ n, s.core.rf.size = some n ∧ i.toNat < n.toNat

/-- The register-file access to these indices raises `e`: NotCreated, or AddressOutOfRange for the first index that is out of
range (60_exceptions.md R207; the order is D7). -/
def AccessRaises (s : State) (regs : List Byte) (e : Err) : Prop :=
  (regs ≠ [] ∧ s.core.rf.created = false ∧ e = .notCreated) ∨
  (s.core.rf.created = true ∧ ∃ n i, s.core.rf.size = some n ∧
    regs.find? (fun j => decide (n.toNat ≤ j.toNat)) = some i ∧ e = .addressOutOfRange i n)

/-- CORE state `c` after an error at `s`: halted under ERROR_POLICY = halt (60_exceptions.md R203, R206). -/
def stopped (s : State) (c : CoreState) : CoreState := { c with halted := decide (s.errorPolicy = .halt) }

/-- A source that is no register out of range. -/
def sourceInRange (n : Byte) : Source → Prop
  | .reg i => i.toNat < n.toNat
  | .imm _ => True

end Sys2Proof.Claims

open Sys2Proof.Claims

/-! ### Reset, boot, the step -/

/-- 10_state.md R45 (with its decisions D5, D8, D11): what reset leaves. The empty `inputs` and `responses` are the model's
choice (log 10, 13) and the default policy is 00_scope.md R9's. -/
def Obligations.ResetLeavesTheBlockEmptyAndUnusable : Prop :=
  State.reset.core.alu.configured = false ∧ State.reset.core.alu.latency = none ∧ State.reset.core.alu.last = none ∧
  State.reset.core.rf.created = false ∧ State.reset.core.rf.size = none ∧ State.reset.core.rf.reserveZero = none ∧
  State.reset.core.rf.readLatency = none ∧ State.reset.core.rf.writeLatency = none ∧
  State.reset.core.rf.cell = [] ∧ State.reset.core.halted = false ∧ State.reset.errorPolicy = .ret

/-- 70_reset_and_hazards.md R233, in either order of the two setup transactions (R232): the state just after boot. -/
def Obligations.BootConfiguresAndCreatesInEitherOrder : Prop :=
  ∀ (policy : ErrorPolicy) (inputs : List Input) (lat rl wl : Latency) (n : Byte) (z : Bool),
    ∀ order ∈ [[Instr.aluConfigure lat, .rfCreate n z rl wl], [.rfCreate n z rl wl, .aluConfigure lat]],
      ∃ t, runAll order (State.start policy inputs) = some t ∧
        t.core.alu = { configured := true, latency := some lat, last := none } ∧
        t.core.rf.created = true ∧ t.core.rf.size = some n ∧ t.core.rf.reserveZero = some z ∧
        t.core.rf.readLatency = some rl ∧ t.core.rf.writeLatency = some wl ∧
        (∀ j, t.core.rf.cell.read j = 0) ∧ t.core.halted = false ∧
        t.responses = [.ok .none, .ok .none]

/-- A step at a request that decodes to a well-formed instruction is that instruction's `exec`, at the state with the request
taken from the port: all a step adds (20_memory.md R53). -/
def Obligations.StepRunsTheDecodedRequest : Prop :=
  ∀ (s : State) (r : Request) (rest : List Input) (i : Instr),
    s.inputs = .request r :: rest → decode r = .ok i → i.wellFormed = true →
      step s = exec i { s with inputs := rest }

/-- A bit pattern of spec/opcode_table.json presented to the port is what the very next step runs, before any input already
waiting: the model's choice (log 13, DESIGN CHOICE). Which request a pattern stands for is the model's choice too (log 12). -/
def Obligations.PresentedTableWordRunsNext : Prop :=
  ∀ (s : State) (nbits w : Nat) (i : Instr), decodeTableWord nbits w = some i →
    step (s.withFetchWord nbits w) = exec i s

/-- 70_reset_and_hazards.md R230 (D11): the reset input constructs the block again, whatever state it was in, halted too. The
policy and the record of responses stay (the model's choice, log 16). -/
def Obligations.ResetInputPutsEveryFieldAtItsResetValue : Prop :=
  ∀ (s : State) (rest : List Input), s.inputs = .reset :: rest →
    step s = .next { core := State.reset.core, errorPolicy := s.errorPolicy, inputs := rest, responses := s.responses }

/-- 30_encoding.md R77 (D14): a request with a selector that names no transaction has no step; every other selector decodes.
That a halted core refuses such a request too is the model's choice (log 18, DESIGN CHOICE), and that any other selector
decodes whatever its unlisted fields carry is log 22's. -/
def Obligations.UnusedSelectorsHaveNoStep : Prop :=
  ∀ (sel : BitVec 4) (f : Fields) (s : State) (rest : List Input), s.inputs = .request (.txn sel f) :: rest →
    if sel.toNat ∈ [3, 4, 5, 6, 7, 14, 15] then step s = .refused (.noTransaction sel)
    else ∃ i, decode (.txn sel f) = .ok i

/-- 20_memory.md R59 (D26): overlapping requests are refused. That a halted core refuses them too, where 60_exceptions.md R207
checks `halted` first for a transaction, is the model's choice (log 17, DESIGN CHOICE). -/
def Obligations.OverlappingRequestsAreRefused : Prop :=
  ∀ (s : State) (r r' : Request) (more : List Request) (rest : List Input),
    s.inputs = .overlapping r r' more :: rest → step s = .refused .overlapping

/-! ### Encoding -/

/-- Decoding and encoding agree, both ways: every well-formed instruction is read back from its request, which is well
formed; and a well-formed request that decodes is the request of what it decodes to (30_encoding.md R71, R76; D2, D14). -/
def Obligations.DecodeAndEncodeAgree : Prop :=
  (∀ i : Instr, i.wellFormed = true → decode (encode i) = .ok i ∧ (encode i).wellFormed = true) ∧
  (∀ (r : Request) (i : Instr), r.wellFormed = true → decode r = .ok i → encode i = r)

/-- All 17 rows of the table, and one unused selector. That a pattern of three bits is an opcode and one of four bits a selector,
every other field at zero (a latency at `first`), is the model's choice (log 12, DESIGN CHOICE; log 5); the opcode numbers
are the spec's decision D2, the selectors its decision D14 (30_encoding.md R71, R76, R77). -/
def Obligations.TableWordsDecodeToTheirRows : Prop :=
  decodeTableWord 3 0b000 = some (.add 0 0) ∧ decodeTableWord 3 0b001 = some (.adc 0 0) ∧
  decodeTableWord 3 0b010 = some (.sub 0 0) ∧ decodeTableWord 3 0b011 = some (.sbc 0 0) ∧
  decodeTableWord 3 0b100 = some (.nor 0 0) ∧ decodeTableWord 3 0b101 = some (.and 0 0) ∧
  decodeTableWord 3 0b110 = some (.xor 0 0) ∧ decodeTableWord 3 0b111 = some (.rsh 0 0) ∧
  decodeTableWord 4 0b0000 = some (.aluConfigure .first) ∧ decodeTableWord 4 0b0001 = some (.aluExecute 0 0 0) ∧
  decodeTableWord 4 0b0010 = some .aluLast ∧
  decodeTableWord 4 0b1000 = some (.rfCreate 0 false .first .first) ∧ decodeTableWord 4 0b1001 = some (.rfWrite 0 0) ∧
  decodeTableWord 4 0b1010 = some (.rfRead 0) ∧ decodeTableWord 4 0b1011 = some (.rfReadPair 0 0) ∧
  decodeTableWord 4 0b1100 = some .rfClear ∧ decodeTableWord 4 0b1101 = some .rfDump ∧
  decodeTableWord 4 0b0111 = none

/-- 30_encoding.md R70 and R72 (the carry-in bit function is a consequence of D2): bit 2 is the group; in the arithmetic group
bit 1 is the invert bit and the carry-in is bit 1 XOR bit 0; the opcode numbering is a bijection. -/
def Obligations.OpcodeBitsAreGroupInvertAndCarryIn : Prop :=
  (∀ op : BitVec 3, (Opcode.ofCode op).code = op) ∧ (∀ o : Opcode, Opcode.ofCode o.code = o) ∧
  (∀ m : LogicOp, (Opcode.logic m).code.getLsbD 2 = true) ∧
  (∀ m : ArithOp, (Opcode.arith m).code.getLsbD 2 = false ∧ (Opcode.arith m).code.getLsbD 1 = invert m ∧
    (((Opcode.arith m).code.getLsbD 1).xor ((Opcode.arith m).code.getLsbD 0)).toNat = carryIn m)

/-- 10_state.md R31's layout (D3): each flag at its bit, two clear bits above in a byte, and nothing lost. -/
def Obligations.FlagSetLayoutIsSixBits : Prop :=
  ∀ f : FlagSet, f.bits.getLsbD 0 = f.c ∧ f.bits.getLsbD 1 = f.nc ∧ f.bits.getLsbD 2 = f.z ∧ f.bits.getLsbD 3 = f.nz ∧
    f.bits.getLsbD 4 = f.ev ∧ f.bits.getLsbD 5 = f.od ∧ f.container.toNat < 64 ∧ FlagSet.ofBits f.bits = f

/-! ### The ALU -/

/-- 41_alu_arithmetic.md R122. -/
def Obligations.AddComputesTheSumModulo256 : Prop :=
  ∀ a b : Byte, Computes (.add a b) 0b000#3 a b ((a.toNat + b.toNat) % 256) (decide (256 ≤ a.toNat + b.toNat))

/-- 41_alu_arithmetic.md R123: the carry-in is the constant 1. -/
def Obligations.AdcComputesTheSumPlusOne : Prop :=
  ∀ a b : Byte, Computes (.adc a b) 0b001#3 a b ((a.toNat + b.toNat + 1) % 256) (decide (256 ≤ a.toNat + b.toNat + 1))

/-- 41_alu_arithmetic.md R124: C is set iff no borrow occurred. -/
def Obligations.SubComputesTheDifferenceAndCarryMeansNoBorrow : Prop :=
  ∀ a b : Byte, Computes (.sub a b) 0b010#3 a b ((a.toNat + 256 - b.toNat) % 256) (decide (b.toNat ≤ a.toNat))

/-- 41_alu_arithmetic.md R125: the borrow-in is the constant 1. -/
def Obligations.SbcComputesTheDifferenceLessOne : Prop :=
  ∀ a b : Byte, Computes (.sbc a b) 0b011#3 a b ((a.toNat + 255 - b.toNat) % 256) (decide (b.toNat < a.toNat))

/-- 42_alu_logic.md R141: `255 - (A | B)`, carry 0. -/
def Obligations.NorComputesTheComplementOfOr : Prop :=
  ∀ a b : Byte, Computes (.nor a b) 0b100#3 a b (255 - (a.toNat ||| b.toNat)) false

/-- 42_alu_logic.md R142. -/
def Obligations.AndComputesBitwiseAnd : Prop :=
  ∀ a b : Byte, Computes (.and a b) 0b101#3 a b (a.toNat &&& b.toNat) false

/-- 42_alu_logic.md R143. -/
def Obligations.XorComputesBitwiseXor : Prop :=
  ∀ a b : Byte, Computes (.xor a b) 0b110#3 a b (a.toNat ^^^ b.toNat) false

/-- 42_alu_logic.md R144: the bit shifted out is not reported; the result is at most 127. -/
def Obligations.RshComputesHalfOfOr : Prop :=
  ∀ a b : Byte, Computes (.rsh a b) 0b111#3 a b ((a.toNat ||| b.toNat) / 2) false ∧ (a.toNat ||| b.toNat) / 2 ≤ 127

/-- 41_alu_arithmetic.md R121: for each arithmetic opcode, C is bit 8 of the wide sum of R120, "not inverted for subtraction":
after SUB and SBC it is set iff no borrow occurred, the number subtracted being no more than A. -/
def Obligations.CarryFlagIsTheAddersCarryOut : Prop :=
  ∀ (a b : Byte) (s : State), s.core.halted = false → s.core.alu.configured = true →
    ∀ row ∈ [(Instr.add a b, a.toNat + b.toNat), (.adc a b, a.toNat + b.toNat + 1),
        (.sub a b, a.toNat + (255 - b.toNat) + 1), (.sbc a b, a.toNat + (255 - b.toNat))],
      ∃ r, Answers row.1 s (.ok (.result r)) { s.core with alu := { s.core.alu with last := some r } } ∧
        r.flags.c = row.2.testBit 8 ∧ r.flags.nc = !row.2.testBit 8 ∧
        (row.1 = .sub a b → (r.flags.c = true ↔ ¬ a.toNat < b.toNat)) ∧
        (row.1 = .sbc a b → (r.flags.c = true ↔ ¬ a.toNat < b.toNat + 1))

/-- 42_alu_logic.md R140: for each logic opcode, the result by its function, the fixed NC flag, and Z and EV from the result. -/
def Obligations.LogicGroupComputesItsFunctionAndReportsNotCarry : Prop :=
  ∀ (a b : Byte) (s : State), s.core.halted = false → s.core.alu.configured = true →
    ∀ row ∈ [(Instr.nor a b, 255 - (a.toNat ||| b.toNat)), (.and a b, a.toNat &&& b.toNat),
        (.xor a b, a.toNat ^^^ b.toNat), (.rsh a b, (a.toNat ||| b.toNat) / 2)],
      ∃ r, Answers row.1 s (.ok (.result r)) { s.core with alu := { s.core.alu with last := some r } } ∧
        r.result.toNat = row.2 ∧ r.flags.c = false ∧ r.flags.nc = true ∧
        (r.flags.z = true ↔ row.2 = 0) ∧ (r.flags.nz = true ↔ row.2 ≠ 0) ∧
        (r.flags.ev = true ↔ row.2 % 2 = 0) ∧ (r.flags.od = true ↔ row.2 % 2 = 1)

/-- 40_alu_control.md R102, R103 (with the opcode numbers of D2): once configured, `execute` answers for every A, B and op,
by the adder where op bit 2 is 0, by the logic function with carry 0 where it is 1, and it is the transaction that the
opcode's own row names. -/
def Obligations.AluExecuteDispatchesOnTheGroupBit : Prop :=
  ∀ (a b : Byte) (op : BitVec 3), encode (.aluExecute a b op) = .txn 0b0001#4 { a := a, b := b, op := op } ∧
    (∀ s : State, exec (.aluExecute a b op) s = exec (decodeOpc op a b) s) ∧
    ∀ s : State, s.core.halted = false → s.core.alu.configured = true →
      ∃ (v : Byte) (c : Bool),
        Answers (.aluExecute a b op) s (.ok (.result ⟨v, flagsOf c v⟩))
          { s.core with alu := { s.core.alu with last := some ⟨v, flagsOf c v⟩ } } ∧
        (op.getLsbD 2 = false → ∃ m, Opcode.ofCode op = .arith m ∧ v.toNat = wideSum m a b % 256 ∧
          c = decide (256 ≤ wideSum m a b)) ∧
        (op.getLsbD 2 = true → ∃ m, Opcode.ofCode op = .logic m ∧ v = logic m a b ∧ c = false)

/-- 40_alu_control.md R101: every `execute` before `configure` raises NotConfigured and writes nothing. -/
def Obligations.ExecuteBeforeConfigureRaisesNotConfigured : Prop :=
  ∀ (i : Instr) (s : State), i.isExecute = true → s.core.halted = false → s.core.alu.configured = false →
    Raises i s .notConfigured

/-- 10_state.md R32, 40_alu_control.md R105 and R106: in every flag set a transaction answers with or leaves in `alu.last`
(starting from an ALU that meets its invariant), each pair is complementary, Z says result 0 and EV says low bit 0. -/
def Obligations.EveryAnsweredFlagSetIsComplementary : Prop :=
  ∀ (i : Instr) (s t : State) (p : Payload) (r : ExecResult), s.core.alu.Inv → exec i s = .next t →
    t.responses = .ok p :: s.responses → (p = .result r ∨ p = .last (some r) ∨ t.core.alu.last = some r) →
    r.flags.nc = !r.flags.c ∧ r.flags.nz = !r.flags.z ∧ r.flags.od = !r.flags.ev ∧
    (r.flags.z = true ↔ r.result.toNat = 0) ∧ (r.flags.ev = true ↔ r.result.toNat % 2 = 0)

/-- 40_alu_control.md R109, 10_state.md R33: what an `execute` answers depends on A, B and op alone: no earlier execution,
latency, register-file state or error policy changes it. -/
def Obligations.ExecuteAnswerDependsOnOperandsAndOpcodeOnly : Prop :=
  ∀ (i : Instr) (s s' : State), i.isExecute = true →
    s.core.halted = false → s'.core.halted = false →
    s.core.alu.configured = true → s'.core.alu.configured = true →
    ∃ r, Answers i s (.ok (.result r)) { s.core with alu := { s.core.alu with last := some r } } ∧
      Answers i s' (.ok (.result r)) { s'.core with alu := { s'.core.alu with last := some r } }

/-- 10_state.md R34, R40: a transaction that changes `alu.last` is an `execute` that answers the new value. -/
def Obligations.OnlyASuccessfulExecuteWritesTheLastResult : Prop :=
  ∀ (i : Instr) (s t : State), exec i s = .next t → t.core.alu.last ≠ s.core.alu.last →
    i.isExecute = true ∧ ∃ r, t.core.alu.last = some r ∧ t.responses = .ok (.result r) :: s.responses

/-- 40_alu_control.md R100. -/
def Obligations.ConfigureSetsTheLatencyOnce : Prop :=
  ∀ (lat : Latency), encode (.aluConfigure lat) = .txn 0b0000#4 { latency := lat } ∧
    ∀ s : State, s.core.halted = false →
      (s.core.alu.configured = false →
        Answers (.aluConfigure lat) s (.ok .none)
          { s.core with alu := { s.core.alu with configured := true, latency := some lat } }) ∧
      (s.core.alu.configured = true → Raises (.aluConfigure lat) s .alreadyConfigured)

/-- 40_alu_control.md R108 (D8, D9): `last` answers `alu.last`, none included, in every state that is not halted, and writes
nothing; after an `execute` it answers what the `execute` answered. -/
def Obligations.LastAnswersTheMostRecentResult : Prop :=
  (∀ s : State, s.core.halted = false → Answers .aluLast s (.ok (.last s.core.alu.last)) s.core) ∧
  (∀ (i : Instr) (s t : State) (r : ExecResult), exec i s = .next t → i.isExecute = true →
    t.responses = .ok (.result r) :: s.responses → Answers .aluLast t (.ok (.last (some r))) t.core)

/-- 40_alu_control.md R110: the closed forms of `execute(A, A, op)`, and that NOR with 0 is NOT (42_alu_logic.md R141). -/
def Obligations.SameSourceTwiceHasItsClosedForms : Prop :=
  ∀ a : Byte, (arith .add a a).1.toNat = 2 * a.toNat % 256 ∧ arith .sub a a = (0, true) ∧ arith .sbc a a = (255, false) ∧
    logic .xor a a = 0 ∧ logic .and a a = a ∧ logic .nor a a = ~~~a ∧ logic .nor a 0 = ~~~a ∧
    (logic .rsh a a).toNat = a.toNat / 2

/-- 41_alu_arithmetic.md R127: the identities between the four arithmetic opcodes. -/
def Obligations.ArithmeticIdentitiesHold : Prop :=
  ∀ a b : Byte, (arith .sub a b).1 = (arith .add a (0 - b)).1 ∧ (arith .sbc a b).1 = (arith .add a (~~~b)).1 ∧
    (arith .sbc a b).1 = (arith .sub a b).1 - 1 ∧ (arith .adc a b).1 = (arith .add a b).1 + 1 ∧
    ((arith .sub a b).2 = true ↔ b.toNat ≤ a.toNat) ∧ ((arith .sbc a b).2 = true ↔ b.toNat < a.toNat) ∧
    ((arith .add a b).2 = true ↔ 255 < a.toNat + b.toNat)

/-! ### The register file -/

/-- 43_register_file.md R160, R161. -/
def Obligations.CreateAllocatesZeroedCellsOnce : Prop :=
  ∀ (n : Byte) (z : Bool) (rl wl : Latency),
    encode (.rfCreate n z rl wl) =
      .txn 0b1000#4 { size := n, reserveZero := z, readLatency := rl, writeLatency := wl } ∧
    ∀ s : State, s.core.halted = false →
      (s.core.rf.created = false → ∃ c, Answers (.rfCreate n z rl wl) s (.ok .none) c ∧
        c.alu = s.core.alu ∧ c.halted = false ∧ c.rf.created = true ∧ c.rf.size = some n ∧
        c.rf.reserveZero = some z ∧ c.rf.readLatency = some rl ∧ c.rf.writeLatency = some wl ∧
        ∀ j, c.rf.cell.read j = 0) ∧
      (s.core.rf.created = true → Raises (.rfCreate n z rl wl) s .alreadyCreated)

/-- 43_register_file.md R162, in the check order of R167: not created, out of range, the discarded write, the write. Every
other cell is as before. -/
def Obligations.WriteSetsOneCellOrIsDiscarded : Prop :=
  ∀ addr v : Byte, encode (.rfWrite addr v) = .txn 0b1001#4 { addr := addr, value := v } ∧
    (∀ s : State, s.core.halted = false → s.core.rf.created = false → Raises (.rfWrite addr v) s .notCreated) ∧
    ∀ (s : State) (n : Byte) (z : Bool), Ready s n z →
      if n.toNat ≤ addr.toNat then Raises (.rfWrite addr v) s (.addressOutOfRange addr n)
      else if z = true ∧ addr = 0 then Answers (.rfWrite addr v) s (.ok (.notice true)) s.core
      else ∃ c, Answers (.rfWrite addr v) s (.ok (.notice false)) c ∧ OnlyCellsMayDiffer s.core c ∧
        ∀ j, c.rf.cell.read j = if j = addr.toNat then v else s.core.rf.cell.read j

/-- 43_register_file.md R163. -/
def Obligations.ReadAnswersTheCell : Prop :=
  ∀ addr : Byte, encode (.rfRead addr) = .txn 0b1010#4 { addr := addr } ∧
    (∀ s : State, s.core.halted = false → s.core.rf.created = false → Raises (.rfRead addr) s .notCreated) ∧
    ∀ (s : State) (n : Byte) (z : Bool), Ready s n z →
      if n.toNat ≤ addr.toNat then Raises (.rfRead addr) s (.addressOutOfRange addr n)
      else Answers (.rfRead addr) s (.ok (.value (cellValue s z addr))) s.core

/-- 43_register_file.md R164 (the order of the two range checks is D7): a bad second address is not masked by a good first. -/
def Obligations.ReadPairAnswersBothCellsOfOneState : Prop :=
  ∀ a b : Byte, encode (.rfReadPair a b) = .txn 0b1011#4 { addrA := a, addrB := b } ∧
    (∀ s : State, s.core.halted = false → s.core.rf.created = false → Raises (.rfReadPair a b) s .notCreated) ∧
    ∀ (s : State) (n : Byte) (z : Bool), Ready s n z →
      if n.toNat ≤ a.toNat then Raises (.rfReadPair a b) s (.addressOutOfRange a n)
      else if n.toNat ≤ b.toNat then Raises (.rfReadPair a b) s (.addressOutOfRange b n)
      else Answers (.rfReadPair a b) s (.ok (.pair (cellValue s z a) (cellValue s z b))) s.core

/-- 43_register_file.md R168: `read_pair(a, b)` answers what `read(a)` and then `read(b)` answer, `a = b` included. -/
def Obligations.ReadPairEqualsTwoReads : Prop :=
  ∀ (s : State) (n : Byte) (z : Bool) (a b : Byte), Ready s n z → a.toNat < n.toNat → b.toNat < n.toNat →
    ∃ va vb t, Answers (.rfReadPair a b) s (.ok (.pair va vb)) s.core ∧
      exec (.rfRead a) s = .next t ∧ t.responses = .ok (.value va) :: s.responses ∧
      Answers (.rfRead b) t (.ok (.value vb)) t.core

/-- 43_register_file.md R165: every non-reserved cell is 0 after `clear`, a reserved cell 0 is left as it is, every cell reads
0, and nothing else changes. -/
def Obligations.ClearZeroesEveryCellAndKeepsTheConfiguration : Prop :=
  encode .rfClear = .txn 0b1100#4 {} ∧
  (∀ s : State, s.core.halted = false → s.core.rf.created = false → Raises .rfClear s .notCreated) ∧
  ∀ (s : State) (n : Byte) (z : Bool), Ready s n z →
    ∃ c, Answers .rfClear s (.ok .none) c ∧ OnlyCellsMayDiffer s.core c ∧
      (∀ addr : Byte, addr.toNat < n.toNat → c.rf.readCell addr = 0) ∧
      ∀ j, c.rf.cell.read j =
        if j < n.toNat ∧ ¬(z = true ∧ j = 0) then 0 else s.core.rf.cell.read j

/-- 43_register_file.md R166 (the order is D10): `size` entries, entry i is cell i. -/
def Obligations.DumpListsEveryCellInOrder : Prop :=
  encode .rfDump = .txn 0b1101#4 {} ∧
  (∀ s : State, s.core.halted = false → s.core.rf.created = false → Raises .rfDump s .notCreated) ∧
  ∀ (s : State) (n : Byte) (z : Bool), Ready s n z →
    ∃ entries, Answers .rfDump s (.ok (.cells entries)) s.core ∧ entries.length = n.toNat ∧
      ∀ addr : Byte, addr.toNat < n.toNat → entries[addr.toNat]? = some (addr, cellValue s z addr)

/-- 43_register_file.md R169: the zero-register laws, over the two transactions. -/
def Obligations.ZeroRegisterLawsHold : Prop :=
  ∀ (s : State) (n : Byte) (z : Bool) (v : Byte), Ready s n z → 0 < n.toNat →
    ∃ t, exec (.rfWrite 0 v) s = .next t ∧
      Answers (.rfRead 0) t (.ok (.value (if z = true then 0 else v))) t.core

/-- 20_memory.md R58 (the spec's own inference): after any transactions that all had a step, errors among them (which change no
cell), a cell of a core that is not halted reads as the latest `write` or `clear` left it. -/
def Obligations.ReadSeesTheLatestWriteOrClear : Prop :=
  ∀ (history : List Instr) (s t : State) (n : Byte) (z : Bool) (addr : Byte), Ready s n z →
    addr.toNat < n.toNat → runAll history s = some t → t.core.halted = false →
    Answers (.rfRead addr) t (.ok (.value (latest z addr history (cellValue s z addr)))) t.core

/-- 10_state.md R25: a transaction that changes a stored cell is a `write` of that cell, a `clear` or a `create`; and what
`read`, `read_pair`, `dump` and `last` leave is CORE as it was (20_memory.md R54). -/
def Obligations.OnlyWriteClearAndCreateChangeCells : Prop :=
  (∀ (i : Instr) (s t : State) (j : Nat), exec i s = .next t → t.core.rf.cell.read j ≠ s.core.rf.cell.read j →
    (∃ addr v, i = .rfWrite addr v ∧ j = addr.toNat ∧ s.core.rf.reserved addr = false) ∨ i = .rfClear ∨
      ∃ n z rl wl, i = .rfCreate n z rl wl) ∧
  (∀ (i : Instr) (s t : State), exec i s = .next t → t.errorPolicy = .ret →
    (∃ a, i = .rfRead a) ∨ (∃ a b, i = .rfReadPair a b) ∨ i = .rfDump ∨ i = .aluLast → t.core = s.core)

/-! ### Errors -/

/-- 60_exceptions.md R200 with the numeric codes of D6: an error response comes only from its own cause, and carries the
information R200 records. -/
def Obligations.EveryErrorHasItsCause : Prop :=
  (∀ (i : Instr) (s t : State) (e : Err), exec i s = .next t → t.responses = .err e :: s.responses →
    match e with
    | .notConfigured => i.isExecute = true ∧ s.core.alu.configured = false
    | .alreadyConfigured => (∃ lat, i = .aluConfigure lat) ∧ s.core.alu.configured = true
    | .alreadyCreated => (∃ n z rl wl, i = .rfCreate n z rl wl) ∧ s.core.rf.created = true
    | .notCreated => (i.isAlu = false ∧ ∀ n z rl wl, i ≠ .rfCreate n z rl wl) ∧ s.core.rf.created = false
    | .addressOutOfRange addr n => Addresses i addr ∧ s.core.rf.created = true ∧
        (∀ m, s.core.rf.size = some m → n = m) ∧ n.toNat ≤ addr.toNat) ∧
  (∀ p, (Response.ok p).status = 0) ∧ (Response.err .notConfigured).status = 1 ∧ (Response.err .notCreated).status = 2 ∧
  (Response.err .alreadyConfigured).status = 3 ∧ (Response.err .alreadyCreated).status = 4 ∧
  ∀ a n, (Response.err (.addressOutOfRange a n)).status = 5

/-- 60_exceptions.md R203: a transaction that answers an error changes no state of CORE, but for `halted` under halt. -/
def Obligations.AnErrorChangesNoState : Prop :=
  ∀ (i : Instr) (s t : State) (e : Err), exec i s = .next t → t.responses = .err e :: s.responses →
    t.core.alu = s.core.alu ∧ t.core.rf = s.core.rf ∧ (s.errorPolicy = .ret → t.core = s.core)

/-- 60_exceptions.md R206 (D5), the erroring transaction and the time after: under halt an error sets `halted`, a success does
not; no transaction has a step while halted, and no step of the machine leaves the halted state but a reset. -/
def Obligations.HaltPolicyStopsTheCoreForGood : Prop :=
  (∀ (i : Instr) (s t : State) (r : Response), exec i s = .next t → t.responses = r :: s.responses →
    (t.core.halted = true ↔ r.isErr = true ∧ s.errorPolicy = .halt)) ∧
  (∀ (i : Instr) (s : State), s.core.halted = true → exec i s = .fault .halted) ∧
  (∀ s t : State, s.core.halted = true → step s = .next t → ∃ rest, s.inputs = .reset :: rest)

/-- 60_exceptions.md R205: under return the next transaction after an error is taken as if the erroring one had not been
issued: the same response, the same CORE. -/
def Obligations.AfterAnErrorTheNextTransactionIsTakenNormally : Prop :=
  ∀ (i j : Instr) (s t : State) (e : Err), s.errorPolicy = .ret → exec i s = .next t →
    t.responses = .err e :: s.responses →
    ∀ (r : Response) (c : CoreState), Answers j s r c ↔ Answers j t r c

/-- 60_exceptions.md R205, R204: the retry: an `execute` refused for want of setup succeeds after `configure`. -/
def Obligations.ExecuteSucceedsWhenRetriedAfterConfigure : Prop :=
  ∀ (i : Instr) (s : State) (lat : Latency), i.isExecute = true → s.errorPolicy = .ret → s.core.halted = false →
    s.core.alu.configured = false →
    ∃ (r : ExecResult) (t : State), runAll [i, .aluConfigure lat, i] s = some t ∧ t.core.alu.last = some r ∧
      t.core.rf = s.core.rf ∧
      t.responses = .ok (.result r) :: .ok .none :: .err .notConfigured :: s.responses

/-! ### Whole-machine rules -/

/-- 30_encoding.md R78, 20_memory.md R53: every transaction of a core that is not halted completes with one response. -/
def Obligations.EveryTransactionGetsOneResponse : Prop :=
  ∀ (i : Instr) (s : State), s.core.halted = false → ∃ (r : Response) (c : CoreState), Answers i s r c

/-- 10_state.md R35 to R37: each lifecycle bit is set only by the successful setup transaction that also writes the
configuration it is given, nothing clears it but a reset, nothing else writes the configuration, and a second `create` fails. -/
def Obligations.ConfigurationIsWrittenOnce : Prop :=
  (∀ (i : Instr) (s t : State), exec i s = .next t →
    (s.core.alu.configured = true → t.core.alu.configured = true ∧ t.core.alu.latency = s.core.alu.latency) ∧
    (s.core.rf.created = true → t.core.rf.created = true ∧ t.core.rf.size = s.core.rf.size ∧
      t.core.rf.reserveZero = s.core.rf.reserveZero ∧ t.core.rf.readLatency = s.core.rf.readLatency ∧
      t.core.rf.writeLatency = s.core.rf.writeLatency) ∧
    (s.core.alu.configured = false → t.core.alu.configured = true →
      t.responses = .ok .none :: s.responses ∧ ∃ lat, i = .aluConfigure lat ∧ t.core.alu.latency = some lat) ∧
    (s.core.rf.created = false → t.core.rf.created = true → t.responses = .ok .none :: s.responses ∧
      ∃ n z rl wl, i = .rfCreate n z rl wl ∧ t.core.rf.size = some n ∧ t.core.rf.reserveZero = some z ∧
        t.core.rf.readLatency = some rl ∧ t.core.rf.writeLatency = some wl) ∧
    (s.configOutputs ≠ t.configOutputs →
      (s.core.alu.configured = false ∧ t.core.alu.configured = true) ∨
      (s.core.rf.created = false ∧ t.core.rf.created = true)) ∧
    ((∃ n z rl wl, i = .rfCreate n z rl wl) → s.core.rf.created = true →
      t.responses = .err .alreadyCreated :: s.responses)) ∧
  (∀ s t : State, step s = .next t → (∀ rest, s.inputs ≠ .reset :: rest) →
    (s.core.alu.configured = true → t.core.alu.configured = true) ∧
    (s.core.rf.created = true → t.core.rf.created = true))

/-- 00_scope.md R2, 20_memory.md R60: an ALU transaction neither reads nor writes the register file, and a register-file
transaction neither reads nor writes the ALU: with any other state of that unit it answers the same and leaves it alone. -/
def Obligations.TheTwoUnitsShareNoState : Prop :=
  (∀ (i : Instr) (s : State) (r : Response) (c : CoreState) (rf : RegFile), i.isAlu = true → Answers i s r c →
    c.rf = s.core.rf ∧ Answers i (s.withRf rf) r { c with rf := rf }) ∧
  (∀ (i : Instr) (s : State) (r : Response) (c : CoreState) (alu : Alu), i.isAlu = false → Answers i s r c →
    c.alu = s.core.alu ∧ Answers i (s.withAlu alu) r { c with alu := alu })

/-- 20_memory.md R60: an ALU transaction and a register-file transaction in either order leave the same CORE and get the same
responses, where errors do not halt. -/
def Obligations.AluAndRegisterFileTransactionsCommute : Prop :=
  ∀ (i j : Instr) (s : State), i.isAlu = true → j.isAlu = false → s.errorPolicy = .ret → s.core.halted = false →
    ∃ (ri rj : Response) (t t' : State), runAll [i, j] s = some t ∧ runAll [j, i] s = some t' ∧
      t.core = t'.core ∧ t.responses = rj :: ri :: s.responses ∧ t'.responses = ri :: rj :: s.responses

/-- 70_reset_and_hazards.md R240, 00_scope.md R9: no rule reads a latency value. With every latency replaced in the state and
in the instruction, each transaction answers the same and leaves the same CORE, its latencies replaced alike. -/
def Obligations.LatencyValuesChangeNothing : Prop :=
  ∀ (f : Latency → Latency) (i : Instr) (s : State) (r : Response) (c : CoreState), Answers i s r c →
    Answers (relabelInstr f i) (s.withCore (relabel f s.core)) r (relabel f c)

/-- The machine's invariant holds at reset, and in every starting state. -/
def Obligations.ResetMeetsTheInvariant : Prop :=
  State.reset.Inv ∧ ∀ policy inputs, (State.start policy inputs).Inv

/-- Every step keeps the machine's invariant (10_state.md R32, R43, R44 and the canonical cells, log 14). -/
def Obligations.EveryStepKeepsTheInvariant : Prop :=
  ∀ s t : State, s.Inv → step s = .next t → t.Inv

/-- Over the reachable states: 10_state.md R43 and R44 (the spec's own inferences), R32 for the stored flags, and `halted` only
under halt (R20, 60_exceptions.md R206, D5). -/
def Obligations.ReachableStatesObeyTheStateRules : Prop :=
  ∀ s : State, Reachable s →
    (s.core.rf.created = true → s.core.rf.reserveZero = some true → (∃ n, s.core.rf.size = some n ∧ 1 ≤ n.toNat) →
      s.core.rf.cell.read 0 = 0) ∧
    (s.core.alu.configured = false → s.core.alu.last = none ∧ s.core.alu.latency = none) ∧
    (∀ r, s.core.alu.last = some r → r.flags.complementary) ∧
    (s.core.halted = true → s.errorPolicy = .halt)

/-! ### The orchestrator -/

/-- 44_orchestration.md R191, all forms of the table: with the sources in range, a pseudo-instruction leaves the result in
`alu.last`, keeps its flags, and writes it back to the destination (unless there is none, or it is a reserved cell 0, where
the result is discarded but the flags are still the result's); every other cell is as before. -/
def Obligations.PseudoInstructionReadsExecutesAndWritesBack : Prop :=
  ∀ (p : Pseudo) (o : Orch) (n : Byte) (z : Bool), Ready o.machine n z → o.machine.core.alu.configured = true →
    sourceInRange n p.srcA → sourceInRange n p.srcB → (∀ d, p.dst = some d → d.toNat < n.toNat) →
    ∃ o' : Orch, runPseudo p o = .ok o' ∧ o'.line = o.line ∧
      (let r := compute p.op (sourceValue o.machine z p.srcA) (sourceValue o.machine z p.srcB)
       o'.flags = some r.flags ∧ o'.machine.core.alu = { o.machine.core.alu with last := some r } ∧
       ∀ addr : Byte, o'.machine.core.rf.readCell addr =
         if p.dst = some addr ∧ ¬(z = true ∧ addr = 0) then r.result else cellValue o.machine z addr)

/-- 44_orchestration.md R191 (D24): after an error the rest of an expansion is not issued, under either policy (`stopped`):
the read's error (NotCreated, or the first source register out of range, first or second source) is the one new response;
NotConfigured at the `execute` comes after the read's success and writes nothing back; a write-back that fails comes after
the `execute`, whose result and flags stay, and changes no cell. What the script does next is not stated (log 19). -/
def Obligations.PseudoInstructionStopsAtTheFirstError : Prop :=
  ∀ (p : Pseudo) (o : Orch), o.machine.core.halted = false →
    (∀ e, AccessRaises o.machine (sourceRegs p) e →
      runPseudo p o = .ok { o with machine := (o.machine.withCore (stopped o.machine o.machine.core)).record (.err e) }) ∧
    (AccessSucceeds o.machine (sourceRegs p) →
      ∃ reads : List Response, reads.length = (if sourceRegs p = [] then 0 else 1) ∧ (∀ r ∈ reads, r.isErr = false) ∧
        (o.machine.core.alu.configured = false →
          runPseudo p o = .ok { o with machine := { o.machine with
            core := stopped o.machine o.machine.core
            responses := .err .notConfigured :: (reads ++ o.machine.responses) } }) ∧
        (o.machine.core.alu.configured = true → ∀ e, AccessRaises o.machine p.dst.toList e →
          let r := compute p.op (sourceRead o.machine p.srcA) (sourceRead o.machine p.srcB)
          runPseudo p o = .ok { o with
            flags := some r.flags
            machine := { o.machine with
              core := stopped o.machine { o.machine.core with alu := { o.machine.core.alu with last := some r } }
              responses := .err e :: .ok (.result r) :: (reads ++ o.machine.responses) } }))

/-- 44_orchestration.md R193: over any number of bytes, low byte first, the chain of opcodes of R193's table adds (or
subtracts) the whole numbers, and its last carry is the carry (or the absence of a borrow) of the whole. -/
def Obligations.CarryChainComputesMultiByteSumsAndDifferences : Prop :=
  ∀ pairs : List (Byte × Byte), pairs ≠ [] →
    (let x := bytesToNat (pairs.map Prod.fst)
     let y := bytesToNat (pairs.map Prod.snd)
     let m := 256 ^ pairs.length
     bytesToNat (runChain .add none pairs).1 = (x + y) % m ∧
     (runChain .add none pairs).2 = some (decide (m ≤ x + y)) ∧
     bytesToNat (runChain .subtract none pairs).1 = (x + m - y) % m ∧
     (runChain .subtract none pairs).2 = some (decide (y ≤ x)))

/-- 44_orchestration.md R193 and R194 on the script of 95_test_vectors.md P2's last two lines: from any configured core with at
least 7 cells, whatever they hold, the script leaves the 16-bit sum of r2:r1 and r4:r3 in r6:r5. -/
def Obligations.SixteenBitAdditionScriptAdds : Prop :=
  ∀ (o : Orch) (n : Byte) (z : Bool), Ready o.machine n z → o.machine.core.alu.configured = true → 7 ≤ n.toNat →
    o.line = 0 →
    ∃ o' : Orch,
      runScript
        [ .act (.pseudo ⟨.arith .add, some 5, .reg 1, .reg 3⟩),
          .ifThen .c (.pseudo ⟨.arith .adc, some 6, .reg 2, .reg 4⟩)
            (some (.pseudo ⟨.arith .add, some 6, .reg 2, .reg 4⟩)) ] 2 o = .ok o' ∧
      (let x := fun k : Byte => o.machine.core.rf.readCell k
       let y := fun k : Byte => o'.machine.core.rf.readCell k
       bytesToNat [y 5, y 6] = (bytesToNat [x 1, x 2] + bytesToNat [x 3, x 4]) % 65536 ∧
       ∀ k : Byte, k ≠ 5 → k ≠ 6 → y k = x k)
end

