-- ==== Sys2Proof/Laws/State.lean ====
section
/-! SUPPORT. One lemma per field per update of State, and of the register file's updates, so that no proof unfolds a record. -/

namespace Sys2Proof.Machine

@[simp] theorem State.record_core (s : State) (r : Response) : (s.record r).core = s.core := rfl
@[simp] theorem State.record_errorPolicy (s : State) (r : Response) : (s.record r).errorPolicy = s.errorPolicy := rfl
@[simp] theorem State.record_inputs (s : State) (r : Response) : (s.record r).inputs = s.inputs := rfl
@[simp] theorem State.record_responses (s : State) (r : Response) : (s.record r).responses = r :: s.responses := rfl

@[simp] theorem State.withCore_core (s : State) (c : CoreState) : (s.withCore c).core = c := rfl
@[simp] theorem State.withCore_errorPolicy (s : State) (c : CoreState) : (s.withCore c).errorPolicy = s.errorPolicy := rfl
@[simp] theorem State.withCore_inputs (s : State) (c : CoreState) : (s.withCore c).inputs = s.inputs := rfl
@[simp] theorem State.withCore_responses (s : State) (c : CoreState) : (s.withCore c).responses = s.responses := rfl

@[simp] theorem State.withAlu_alu (s : State) (a : Alu) : (s.withAlu a).core.alu = a := rfl
@[simp] theorem State.withAlu_rf (s : State) (a : Alu) : (s.withAlu a).core.rf = s.core.rf := rfl
@[simp] theorem State.withAlu_halted (s : State) (a : Alu) : (s.withAlu a).core.halted = s.core.halted := rfl
@[simp] theorem State.withAlu_errorPolicy (s : State) (a : Alu) : (s.withAlu a).errorPolicy = s.errorPolicy := rfl
@[simp] theorem State.withAlu_inputs (s : State) (a : Alu) : (s.withAlu a).inputs = s.inputs := rfl
@[simp] theorem State.withAlu_responses (s : State) (a : Alu) : (s.withAlu a).responses = s.responses := rfl

@[simp] theorem State.withRf_alu (s : State) (rf : RegFile) : (s.withRf rf).core.alu = s.core.alu := rfl
@[simp] theorem State.withRf_rf (s : State) (rf : RegFile) : (s.withRf rf).core.rf = rf := rfl
@[simp] theorem State.withRf_halted (s : State) (rf : RegFile) : (s.withRf rf).core.halted = s.core.halted := rfl
@[simp] theorem State.withRf_errorPolicy (s : State) (rf : RegFile) : (s.withRf rf).errorPolicy = s.errorPolicy := rfl
@[simp] theorem State.withRf_inputs (s : State) (rf : RegFile) : (s.withRf rf).inputs = s.inputs := rfl
@[simp] theorem State.withRf_responses (s : State) (rf : RegFile) : (s.withRf rf).responses = s.responses := rfl

@[simp] theorem State.withInputs_core (s : State) (l : List Input) : (s.withInputs l).core = s.core := rfl
@[simp] theorem State.withInputs_errorPolicy (s : State) (l : List Input) : (s.withInputs l).errorPolicy = s.errorPolicy := rfl
@[simp] theorem State.withInputs_inputs (s : State) (l : List Input) : (s.withInputs l).inputs = l := rfl
@[simp] theorem State.withInputs_responses (s : State) (l : List Input) : (s.withInputs l).responses = s.responses := rfl

@[simp] theorem State.construct_core (s : State) : s.construct.core = CoreState.reset := rfl
@[simp] theorem State.construct_errorPolicy (s : State) : s.construct.errorPolicy = s.errorPolicy := rfl
@[simp] theorem State.construct_inputs (s : State) : s.construct.inputs = s.inputs := rfl
@[simp] theorem State.construct_responses (s : State) : s.construct.responses = s.responses := rfl

@[simp] theorem State.present_core (s : State) (r : Request) : (s.present r).core = s.core := rfl
@[simp] theorem State.present_inputs (s : State) (r : Request) : (s.present r).inputs = .request r :: s.inputs := rfl

/-- Taking the presented request from the port gives the machine back. -/
@[simp] theorem State.present_withInputs (s : State) (r : Request) : (s.present r).withInputs s.inputs = s := rfl

@[simp] theorem CoreState.reset_alu : CoreState.reset.alu = Alu.reset := rfl
@[simp] theorem CoreState.reset_rf : CoreState.reset.rf = RegFile.reset := rfl
@[simp] theorem CoreState.reset_halted : CoreState.reset.halted = false := rfl

/-- A write of a cell changes no other field of the register file. -/
theorem RegFile.writeCell_config (rf : RegFile) (addr v : Byte) :
    (rf.writeCell addr v).created = rf.created ∧ (rf.writeCell addr v).size = rf.size ∧
    (rf.writeCell addr v).reserveZero = rf.reserveZero ∧ (rf.writeCell addr v).readLatency = rf.readLatency ∧
    (rf.writeCell addr v).writeLatency = rf.writeLatency := by
  unfold RegFile.writeCell
  split <;> simp

@[simp] theorem RegFile.writeCell_created (rf : RegFile) (addr v : Byte) : (rf.writeCell addr v).created = rf.created :=
  (rf.writeCell_config addr v).1

@[simp] theorem RegFile.writeCell_size (rf : RegFile) (addr v : Byte) : (rf.writeCell addr v).size = rf.size :=
  (rf.writeCell_config addr v).2.1

@[simp] theorem RegFile.writeCell_reserveZero (rf : RegFile) (addr v : Byte) :
    (rf.writeCell addr v).reserveZero = rf.reserveZero :=
  (rf.writeCell_config addr v).2.2.1

@[simp] theorem RegFile.writeCell_readLatency (rf : RegFile) (addr v : Byte) :
    (rf.writeCell addr v).readLatency = rf.readLatency :=
  (rf.writeCell_config addr v).2.2.2.1

@[simp] theorem RegFile.writeCell_writeLatency (rf : RegFile) (addr v : Byte) :
    (rf.writeCell addr v).writeLatency = rf.writeLatency :=
  (rf.writeCell_config addr v).2.2.2.2

@[simp] theorem RegFile.clearCells_created (rf : RegFile) : rf.clearCells.created = rf.created := rfl
@[simp] theorem RegFile.clearCells_size (rf : RegFile) : rf.clearCells.size = rf.size := rfl
@[simp] theorem RegFile.clearCells_reserveZero (rf : RegFile) : rf.clearCells.reserveZero = rf.reserveZero := rfl
@[simp] theorem RegFile.clearCells_readLatency (rf : RegFile) : rf.clearCells.readLatency = rf.readLatency := rfl
@[simp] theorem RegFile.clearCells_writeLatency (rf : RegFile) : rf.clearCells.writeLatency = rf.writeLatency := rfl

end Sys2Proof.Machine
end

