-- ==== Sys2Proof/Laws/Memory.lean ====
section
/-! SUPPORT. The laws of the cells' storage: what a read sees after each operation, and that each keeps the canonical form. -/

namespace Sys2Proof.Machine

namespace CellLaws

@[simp] theorem read_nil (i : Nat) : Memory.read [] i = 0 := rfl

theorem read_cons (k : Nat) (v : Byte) (m : Memory) (i : Nat) :
    Memory.read ((k, v) :: m) i = if k = i then v else Memory.read m i := rfl

/-- An index that no entry has reads blank. -/
theorem read_of_no_entry (m : Memory) (i : Nat) (h : ∀ e ∈ m, e.1 ≠ i) : Memory.read m i = 0 := by
  induction m with
  | nil => rfl
  | cons e m ih =>
    obtain ⟨k, v⟩ := e
    rw [read_cons, if_neg (h (k, v) (by simp)), ih fun e he => h e (by simp [he])]

/-- Dropping entries by index: a read of a kept index is as before, of a dropped one blank. -/
theorem read_filter (m : Memory) (p : Nat → Bool) (i : Nat) :
    Memory.read (m.filter fun e => p e.1) i = if p i then Memory.read m i else 0 := by
  induction m with
  | nil => simp
  | cons e m ih =>
    obtain ⟨k, v⟩ := e
    by_cases hk : p k <;> by_cases hi : k = i <;> simp_all [read_cons]

theorem read_insert (m : Memory) (i : Nat) (v : Byte) (j : Nat) :
    Memory.read (Memory.insert m i v) j = if j = i then v else Memory.read m j := by
  induction m with
  | nil => simp [Memory.insert, read_cons, eq_comm]
  | cons e m ih =>
    obtain ⟨k, w⟩ := e
    unfold Memory.insert
    split
    · simp only [read_cons, eq_comm]
    · split
      · subst i; simp only [read_cons, eq_comm]; split <;> rfl
      · simp only [read_cons, ih]
        split <;> split <;> simp_all

theorem read_erase (m : Memory) (i j : Nat) :
    Memory.read (Memory.erase m i) j = if j = i then 0 else Memory.read m j := by
  have h := read_filter m (fun k => decide (k ≠ i)) j
  by_cases hj : j = i <;> simp_all [Memory.erase]

/-- Read after write: the cell written reads the value, every other cell is as before. -/
@[simp] theorem read_write (m : Memory) (i : Nat) (v : Byte) (j : Nat) :
    Memory.read (Memory.write m i v) j = if j = i then v else Memory.read m j := by
  unfold Memory.write
  split
  · rename_i h; rw [read_erase, h]; rfl
  · rw [read_insert]

/-- Read after clear: 0 below the size (but for a kept index 0), as before elsewhere. -/
@[simp] theorem read_clearBelow (m : Memory) (size : Nat) (keep : Bool) (j : Nat) :
    Memory.read (Memory.clearBelow m size keep) j =
      if j < size ∧ ¬(keep = true ∧ j = 0) then 0 else Memory.read m j := by
  have h := read_filter m (fun k => decide (size ≤ k) || (keep && decide (k = 0))) j
  unfold Memory.clearBelow
  rw [h]
  by_cases h1 : size ≤ j <;> by_cases h2 : j = 0 <;> cases keep <;> simp_all

theorem mem_insert {m : Memory} {i : Nat} {v : Byte} {e : Host.Cell} (h : e ∈ Memory.insert m i v) :
    e = (i, v) ∨ e ∈ m := by
  induction m with
  | nil => simpa [Memory.insert] using h
  | cons d m ih =>
    obtain ⟨k, w⟩ := d
    unfold Memory.insert at h
    split at h
    · simpa using h
    · split at h
      · rcases List.mem_cons.1 h with h | h
        · exact .inl h
        · exact .inr (by simp [h])
      · rcases List.mem_cons.1 h with h | h
        · exact .inr (by simp [h])
        · rcases ih h with h | h
          · exact .inl h
          · exact .inr (by simp [h])

/-- A write brings no entry but its own. -/
theorem mem_write {m : Memory} {i : Nat} {v : Byte} {e : Host.Cell} (h : e ∈ Memory.write m i v) :
    e = (i, v) ∨ e ∈ m := by
  unfold Memory.write at h
  split at h
  · exact .inr (List.mem_filter.1 h).1
  · exact mem_insert h

theorem wf_filter {m : Memory} (p : Host.Cell → Bool) (h : Memory.wf m) : Memory.wf (m.filter p) :=
  ⟨h.1.filter p, fun e he => h.2 e (List.mem_filter.1 he).1⟩

theorem wf_insert {m : Memory} {i : Nat} {v : Byte} (hv : v ≠ Memory.blank) (h : Memory.wf m) :
    Memory.wf (Memory.insert m i v) := by
  refine ⟨?_, fun e he => ?_⟩
  · induction m with
    | nil => simp [Memory.insert]
    | cons d m ih =>
      obtain ⟨k, w⟩ := d
      have hp := List.pairwise_cons.1 h.1
      have ht : Memory.wf m := ⟨hp.2, fun e he => h.2 e (by simp [he])⟩
      unfold Memory.insert
      split
      · rename_i hi
        refine List.pairwise_cons.2 ⟨fun e he => ?_, h.1⟩
        rcases List.mem_cons.1 he with rfl | he
        · exact hi
        · exact Nat.lt_trans hi (hp.1 e he)
      · split
        · rename_i _ hk
          subst hk
          exact List.pairwise_cons.2 ⟨hp.1, hp.2⟩
        · rename_i h1 h2
          refine List.pairwise_cons.2 ⟨fun e he => ?_, ih ht⟩
          rcases mem_insert he with rfl | he
          · simp only; omega
          · exact hp.1 e he
  · rcases mem_insert he with rfl | he
    · exact hv
    · exact h.2 e he

/-- A write keeps the canonical form. -/
theorem wf_write {m : Memory} (i : Nat) (v : Byte) (h : Memory.wf m) : Memory.wf (Memory.write m i v) := by
  unfold Memory.write
  split
  · exact wf_filter _ h
  · rename_i hv; exact wf_insert hv h

/-- A clear keeps the canonical form. -/
theorem wf_clearBelow {m : Memory} (size : Nat) (keep : Bool) (h : Memory.wf m) :
    Memory.wf (Memory.clearBelow m size keep) :=
  wf_filter _ h

/-- Storage with nothing listed is canonical: create's and reset's. -/
theorem wf_nil : Memory.wf [] := by decide

/-- In canonical storage an entry is what its index reads. -/
theorem read_of_mem {m : Memory} (h : Memory.wf m) {e : Host.Cell} (he : e ∈ m) : Memory.read m e.1 = e.2 := by
  induction m with
  | nil => simp at he
  | cons d m ih =>
    obtain ⟨k, w⟩ := d
    have hp := List.pairwise_cons.1 h.1
    rcases List.mem_cons.1 he with rfl | he
    · simp [read_cons]
    · have hlt := hp.1 e he
      rw [read_cons, if_neg (by simp only at hlt; omega)]
      exact ih ⟨hp.2, fun e he => h.2 e (by simp [he])⟩ he

end CellLaws

end Sys2Proof.Machine
end

