-- ==== Sys2Proof/Laws/Ops.lean ====
section
/-! SUPPORT. Each shared operation's whole behaviour, said once: how it answers and what it leaves. -/

namespace Sys2Proof.Machine

/-- What `raise` leaves, under either policy. -/
theorem raise_eq (e : Err) (s : State) :
    raise e s = .next ((s.withCore { s.core with halted := s.core.halted || decide (s.errorPolicy = .halt) }).record (.err e)) := by
  unfold raise
  cases h : s.errorPolicy
  · simp; rfl
  · simp

/-- From a core that is not halted, `raise` leaves `halted` saying whether the policy is halt. -/
theorem raise_of_not_halted (e : Err) (s : State) (h : s.core.halted = false) :
    raise e s = .next ((s.withCore { s.core with halted := decide (s.errorPolicy = .halt) }).record (.err e)) := by
  rw [raise_eq, h, Bool.false_or]

theorem respond_eq (p : Payload) (s : State) : respond p s = .next (s.record (.ok p)) := rfl

theorem unlessHalted_of_halted (s : State) (k : Result) (h : s.core.halted = true) : unlessHalted s k = .fault .halted := by
  simp [unlessHalted, h]

theorem unlessHalted_of_not_halted (s : State) (k : Result) (h : s.core.halted = false) : unlessHalted s k = k := by
  simp [unlessHalted, h]

/-- A transaction has a next state only when the core is not halted, and then it is its body's. -/
theorem unlessHalted_next {s t : State} {k : Result} (h : unlessHalted s k = .next t) :
    s.core.halted = false ∧ k = .next t := by
  cases hh : s.core.halted
  · exact ⟨rfl, by rwa [unlessHalted_of_not_halted s k hh] at h⟩
  · rw [unlessHalted_of_halted s k hh] at h; cases h

/-- `whenConfigured` either goes on or raises NotConfigured. -/
theorem whenConfigured_cases (s : State) (k : Result) :
    (s.core.alu.configured = true ∧ whenConfigured s k = k) ∨
    (s.core.alu.configured = false ∧ whenConfigured s k = raise .notConfigured s) := by
  unfold whenConfigured
  cases s.core.alu.configured <;> simp

/-- `whenCreated` either goes on or raises NotCreated. -/
theorem whenCreated_cases (s : State) (k : Result) :
    (s.core.rf.created = true ∧ whenCreated s k = k) ∨
    (s.core.rf.created = false ∧ whenCreated s k = raise .notCreated s) := by
  unfold whenCreated
  cases s.core.rf.created <;> simp

/-- `whenInRange` either goes on or raises AddressOutOfRange with the address and the size. -/
theorem whenInRange_cases (addr : Byte) (s : State) (k : Result) :
    (addr.toNat < s.core.rf.sizeByte.toNat ∧ whenInRange addr s k = k) ∨
    (s.core.rf.sizeByte.toNat ≤ addr.toNat ∧
      whenInRange addr s k = raise (.addressOutOfRange addr s.core.rf.sizeByte) s) := by
  unfold whenInRange RegFile.inRange
  by_cases h : addr.toNat < s.core.rf.sizeByte.toNat
  · exact .inl ⟨h, by simp [h]⟩
  · exact .inr ⟨by omega, by simp [h]⟩

/-- What a delivered `execute` result does, all cases. -/
theorem execute_cases (r : ExecResult) (s : State) :
    (s.core.halted = true ∧ execute r s = .fault .halted) ∨
    (s.core.halted = false ∧ s.core.alu.configured = false ∧ execute r s = raise .notConfigured s) ∨
    (s.core.halted = false ∧ s.core.alu.configured = true ∧
      execute r s = .next ((s.withAlu { s.core.alu with last := some r }).record (.ok (.result r)))) := by
  unfold execute unlessHalted whenConfigured respond
  cases s.core.halted <;> cases s.core.alu.configured <;> simp

/-- A read of a cell after a write of a cell: the value at a cell written and not reserved, else as before. -/
theorem readCell_writeCell (rf : RegFile) (a v b : Byte) :
    (rf.writeCell a v).readCell b = if a = b ∧ rf.reserved b = false then v else rf.readCell b := by
  have hres : ∀ x, (rf.writeCell a v).reserved x = rf.reserved x := fun x => by
    simp [RegFile.reserved]
  unfold RegFile.readCell
  rw [hres]
  by_cases hb : rf.reserved b = true
  · simp [hb]
  · have hb' : rf.reserved b = false := by simpa using hb
    unfold RegFile.writeCell
    by_cases hab : a = b
    · subst hab; simp [hb']
    · have hn : b.toNat ≠ a.toNat := fun h => hab (BitVec.eq_of_toNat_eq h.symm)
      by_cases ha : rf.reserved a = true <;> simp [ha, hb', hab, hn]

/-- A reserved cell reads 0 whatever is stored. -/
@[simp] theorem readCell_of_reserved (rf : RegFile) (a : Byte) (h : rf.reserved a = true) : rf.readCell a = 0 := by
  simp [RegFile.readCell, h]

/-- Where a reserved cell 0 holds 0, the read is the stored cell (43_register_file.md R163's pseudocode). -/
theorem readCell_eq_stored (rf : RegFile) (a : Byte) (h : rf.reserveZero = some true → rf.cell.read 0 = 0) :
    rf.readCell a = rf.cell.read a.toNat := by
  unfold RegFile.readCell RegFile.reserved
  cases hz : rf.reserveZero with
  | none => simp
  | some z =>
    cases z with
    | false => simp
    | true =>
      by_cases ha : a = 0
      · subst ha; simp [h hz]
      · have hd : decide (a = 0) = false := decide_eq_false ha
        rw [hd]; rfl

/-- Every valid cell reads 0 after a clear. -/
theorem readCell_clearCells (rf : RegFile) (a : Byte) (h : a.toNat < rf.sizeByte.toNat) : rf.clearCells.readCell a = 0 := by
  have hres : rf.clearCells.reserved a = rf.reserved a := rfl
  unfold RegFile.readCell
  rw [hres]
  by_cases ha : rf.reserved a = true
  · simp [ha]
  · simp only [ha]
    have hk : ¬(rf.reserveZero.getD false = true ∧ a.toNat = 0) := fun ⟨h1, h2⟩ =>
      ha (by simp [RegFile.reserved, h1, BitVec.eq_of_toNat_eq (x := a) (y := 0) (by simpa using h2)])
    have : rf.clearCells.cell = rf.cell.clearBelow rf.sizeByte.toNat (rf.reserveZero.getD false) := rfl
    rw [this, CellLaws.read_clearBelow]
    simp only [if_pos (And.intro h hk)]
    rfl

/-- `dump`'s sequence has one entry for each cell. -/
@[simp] theorem listCells_length (rf : RegFile) : rf.listCells.length = rf.sizeByte.toNat := by
  simp [RegFile.listCells]

/-- Entry i of `dump`'s sequence is cell i. -/
theorem listCells_get (rf : RegFile) (a : Byte) (h : a.toNat < rf.sizeByte.toNat) :
    rf.listCells[a.toNat]? = some (a, rf.readCell a) := by
  simp [RegFile.listCells, h]

end Sys2Proof.Machine
end

