-- ==== Sys2Proof/Laws/Alu.lean ====
section
/-! SUPPORT. The flag derivation and the adder, each in one lemma. -/

namespace Sys2Proof.Machine

@[simp] theorem mkResult_result (v : Byte) (c : Bool) : (mkResult v c).result = v := rfl
@[simp] theorem mkResult_flags (v : Byte) (c : Bool) : (mkResult v c).flags = mkFlags c v := rfl
@[simp] theorem mkFlags_c (c : Bool) (v : Byte) : (mkFlags c v).c = c := rfl

/-- The derived flag set's pairs are complementary (10_state.md R32). -/
theorem mkFlags_complementary (c : Bool) (v : Byte) : (mkFlags c v).complementary := by
  simp [mkFlags, FlagSet.complementary]

/-- The even flag over numbers (40_alu_control.md R106). -/
theorem low_bit_eq (v : Byte) : v.getLsbD 0 = decide (v.toNat % 2 = 1) := by
  rw [BitVec.getLsbD, Nat.testBit_zero]

/-- The inverted operand over numbers: `~v = 255 - v` (00_scope.md R11). -/
theorem addend_toNat (m : ArithOp) (b : Byte) : (addend m b).toNat = if invert m then 255 - b.toNat else b.toNat := by
  unfold addend
  split
  · rw [BitVec.toNat_not]
  · rfl

/-- The wide sum lies in 0..511 (00_scope.md R11). -/
theorem wideSum_lt (m : ArithOp) (a b : Byte) : wideSum m a b < 512 := by
  have ha := a.isLt
  have hb := (addend m b).isLt
  have hc : carryIn m ≤ 1 := by cases m <;> decide
  unfold wideSum
  omega

/-- The adder's result over numbers. -/
@[simp] theorem arith_result_toNat (m : ArithOp) (a b : Byte) : (arith m a b).1.toNat = wideSum m a b % 256 := by
  simp [arith]

/-- The adder's carry-out is set iff the wide sum is 256 or more (41_alu_arithmetic.md R120). -/
theorem arith_carry (m : ArithOp) (a b : Byte) : (arith m a b).2 = decide (256 ≤ wideSum m a b) := by
  have h := wideSum_lt m a b
  have e : (arith m a b).2 = (wideSum m a b).testBit 8 := rfl
  rw [e, Nat.testBit_eq_decide_div_mod_eq]
  by_cases hw : 256 ≤ wideSum m a b <;> simp only [hw, decide_true, decide_false] <;> simp <;> omega

end Sys2Proof.Machine
end

