-- ==== Sys2Proof/Laws/Exec.lean ====
section
/-! SUPPORT. What a transaction can do, said once: it has no step (halted), it raises an error for its own cause, or it
succeeds with its own payload and effect. Later proofs cite `exec_cases` and never unfold a meaning. -/

namespace Sys2Proof.Machine

/-- Why transaction `i` raises `e` at `s`. -/
def Cause (i : Instr) (s : State) (e : Err) : Prop :=
  match i with
  | .add _ _ | .adc _ _ | .sub _ _ | .sbc _ _ | .nor _ _ | .and _ _ | .xor _ _ | .rsh _ _ =>
    e = .notConfigured ∧ s.core.alu.configured = false
  | .aluExecute _ _ _ => e = .notConfigured ∧ s.core.alu.configured = false
  | .aluConfigure _ => e = .alreadyConfigured ∧ s.core.alu.configured = true
  | .aluLast => False
  | .rfCreate _ _ _ _ => e = .alreadyCreated ∧ s.core.rf.created = true
  | .rfWrite addr _ | .rfRead addr =>
    (e = .notCreated ∧ s.core.rf.created = false) ∨
    (e = .addressOutOfRange addr s.core.rf.sizeByte ∧ s.core.rf.created = true ∧ s.core.rf.sizeByte.toNat ≤ addr.toNat)
  | .rfReadPair a b =>
    (e = .notCreated ∧ s.core.rf.created = false) ∨
    (e = .addressOutOfRange a s.core.rf.sizeByte ∧ s.core.rf.created = true ∧ s.core.rf.sizeByte.toNat ≤ a.toNat) ∨
    (e = .addressOutOfRange b s.core.rf.sizeByte ∧ s.core.rf.created = true ∧ a.toNat < s.core.rf.sizeByte.toNat ∧
      s.core.rf.sizeByte.toNat ≤ b.toNat)
  | .rfClear | .rfDump => e = .notCreated ∧ s.core.rf.created = false

/-- The effect of an `execute` that delivers `r`. -/
def Delivers (r : ExecResult) (s : State) (p : Payload) (c : CoreState) : Prop :=
  s.core.alu.configured = true ∧ p = .result r ∧ c = { s.core with alu := { s.core.alu with last := some r } }

/-- What transaction `i` answers and leaves at `s` when it succeeds, with the checks it passed. -/
def Effect (i : Instr) (s : State) (p : Payload) (c : CoreState) : Prop :=
  match i with
  | .add a b => Delivers (compute (.arith .add) a b) s p c
  | .adc a b => Delivers (compute (.arith .adc) a b) s p c
  | .sub a b => Delivers (compute (.arith .sub) a b) s p c
  | .sbc a b => Delivers (compute (.arith .sbc) a b) s p c
  | .nor a b => Delivers (compute (.logic .nor) a b) s p c
  | .and a b => Delivers (compute (.logic .and) a b) s p c
  | .xor a b => Delivers (compute (.logic .xor) a b) s p c
  | .rsh a b => Delivers (compute (.logic .rsh) a b) s p c
  | .aluExecute a b op => Delivers (compute (Opcode.ofCode op) a b) s p c
  | .aluConfigure lat => s.core.alu.configured = false ∧ p = .none ∧
      c = { s.core with alu := { s.core.alu with configured := true, latency := some lat } }
  | .aluLast => p = .last s.core.alu.last ∧ c = s.core
  | .rfCreate n z rl wl => s.core.rf.created = false ∧ p = .none ∧
      c = { s.core with rf :=
        { created := true, size := some n, reserveZero := some z, readLatency := some rl, writeLatency := some wl,
          cell := [] } }
  | .rfWrite addr v => s.core.rf.created = true ∧ addr.toNat < s.core.rf.sizeByte.toNat ∧
      p = .notice (s.core.rf.reserved addr) ∧ c = { s.core with rf := s.core.rf.writeCell addr v }
  | .rfRead addr => s.core.rf.created = true ∧ addr.toNat < s.core.rf.sizeByte.toNat ∧
      p = .value (s.core.rf.readCell addr) ∧ c = s.core
  | .rfReadPair a b => s.core.rf.created = true ∧ a.toNat < s.core.rf.sizeByte.toNat ∧
      b.toNat < s.core.rf.sizeByte.toNat ∧ p = .pair (s.core.rf.readCell a) (s.core.rf.readCell b) ∧ c = s.core
  | .rfClear => s.core.rf.created = true ∧ p = .none ∧ c = { s.core with rf := s.core.rf.clearCells }
  | .rfDump => s.core.rf.created = true ∧ p = .cells s.core.rf.listCells ∧ c = s.core

/-- The error a transaction raises leaves CORE as it was, but for `halted` under halt. -/
def State.afterError (s : State) (e : Err) : State :=
  (s.withCore { s.core with halted := decide (s.errorPolicy = .halt) }).record (.err e)

/-- What a success leaves. -/
def State.afterSuccess (s : State) (p : Payload) (c : CoreState) : State := (s.withCore c).record (.ok p)

theorem execute_shape (r : ExecResult) (s : State) (h : s.core.halted = false) :
    (s.core.alu.configured = false ∧ execute r s = .next (s.afterError .notConfigured)) ∨
    (∃ p c, Delivers r s p c ∧ execute r s = .next (s.afterSuccess p c)) := by
  rcases execute_cases r s with h' | ⟨-, hc, he⟩ | ⟨-, hc, he⟩
  · simp [h'.1] at h
  · exact .inl ⟨hc, by rw [he, raise_of_not_halted _ _ h]; rfl⟩
  · exact .inr ⟨_, _, ⟨hc, rfl, rfl⟩, he⟩

/-- What any transaction does in a core that is not halted. -/
theorem exec_cases (i : Instr) (s : State) (h : s.core.halted = false) :
    (∃ e, Cause i s e ∧ exec i s = .next (s.afterError e)) ∨
    (∃ p c, Effect i s p c ∧ exec i s = .next (s.afterSuccess p c)) := by
  have computing : ∀ r, exec i s = execute r s → Cause i s .notConfigured = (Err.notConfigured = .notConfigured ∧
      s.core.alu.configured = false) → (∀ p c, Effect i s p c = Delivers r s p c) →
      (∃ e, Cause i s e ∧ exec i s = .next (s.afterError e)) ∨
      (∃ p c, Effect i s p c ∧ exec i s = .next (s.afterSuccess p c)) := by
    intro r hx hcause heffect
    rcases execute_shape r s h with ⟨hc, he⟩ | ⟨p, c, hd, he⟩
    · exact .inl ⟨_, hcause ▸ ⟨rfl, hc⟩, hx.trans he⟩
    · exact .inr ⟨p, c, (heffect p c) ▸ hd, hx.trans he⟩
  have raised : ∀ e, exec i s = raise e s → Cause i s e →
      (∃ e, Cause i s e ∧ exec i s = .next (s.afterError e)) ∨
      (∃ p c, Effect i s p c ∧ exec i s = .next (s.afterSuccess p c)) := fun e hx hc =>
    .inl ⟨e, hc, by rw [hx, raise_of_not_halted e s h]; rfl⟩
  cases i with
  | add a b => exact computing _ rfl rfl fun _ _ => rfl
  | adc a b => exact computing _ rfl rfl fun _ _ => rfl
  | sub a b => exact computing _ rfl rfl fun _ _ => rfl
  | sbc a b => exact computing _ rfl rfl fun _ _ => rfl
  | nor a b => exact computing _ rfl rfl fun _ _ => rfl
  | and a b => exact computing _ rfl rfl fun _ _ => rfl
  | xor a b => exact computing _ rfl rfl fun _ _ => rfl
  | rsh a b => exact computing _ rfl rfl fun _ _ => rfl
  | aluExecute a b op => exact computing _ rfl rfl fun _ _ => rfl
  | aluConfigure lat =>
    have hx : exec (.aluConfigure lat) s = _ := unlessHalted_of_not_halted s _ h
    cases hc : s.core.alu.configured
    · exact .inr ⟨_, _, ⟨hc, rfl, rfl⟩, by rw [hx, hc]; rfl⟩
    · exact raised _ (by rw [hx, hc]; rfl) ⟨rfl, hc⟩
  | aluLast => exact .inr ⟨_, _, ⟨rfl, rfl⟩, unlessHalted_of_not_halted s _ h⟩
  | rfCreate n z rl wl =>
    have hx : exec (.rfCreate n z rl wl) s = _ := unlessHalted_of_not_halted s _ h
    cases hc : s.core.rf.created
    · exact .inr ⟨_, _, ⟨hc, rfl, rfl⟩, by rw [hx, hc]; rfl⟩
    · exact raised _ (by rw [hx, hc]; rfl) ⟨rfl, hc⟩
  | rfWrite addr v =>
    have hx : exec (.rfWrite addr v) s = _ := unlessHalted_of_not_halted s _ h
    rcases whenCreated_cases s (whenInRange addr s
      (respond (.notice (s.core.rf.reserved addr)) (s.withRf (s.core.rf.writeCell addr v)))) with ⟨hc, e1⟩ | ⟨hc, e1⟩
    · rcases whenInRange_cases addr s
        (respond (.notice (s.core.rf.reserved addr)) (s.withRf (s.core.rf.writeCell addr v))) with ⟨hr, e2⟩ | ⟨hr, e2⟩
      · exact .inr ⟨_, _, ⟨hc, hr, rfl, rfl⟩, hx.trans (e1.trans e2)⟩
      · exact raised _ (hx.trans (e1.trans e2)) (.inr ⟨rfl, hc, hr⟩)
    · exact raised _ (hx.trans e1) (.inl ⟨rfl, hc⟩)
  | rfRead addr =>
    have hx : exec (.rfRead addr) s = _ := unlessHalted_of_not_halted s _ h
    rcases whenCreated_cases s (whenInRange addr s (respond (.value (s.core.rf.readCell addr)) s)) with
      ⟨hc, e1⟩ | ⟨hc, e1⟩
    · rcases whenInRange_cases addr s (respond (.value (s.core.rf.readCell addr)) s) with ⟨hr, e2⟩ | ⟨hr, e2⟩
      · exact .inr ⟨_, _, ⟨hc, hr, rfl, rfl⟩, hx.trans (e1.trans e2)⟩
      · exact raised _ (hx.trans (e1.trans e2)) (.inr ⟨rfl, hc, hr⟩)
    · exact raised _ (hx.trans e1) (.inl ⟨rfl, hc⟩)
  | rfReadPair a b =>
    have hx : exec (.rfReadPair a b) s = _ := unlessHalted_of_not_halted s _ h
    rcases whenCreated_cases s (whenInRange a s (whenInRange b s
      (respond (.pair (s.core.rf.readCell a) (s.core.rf.readCell b)) s))) with ⟨hc, e1⟩ | ⟨hc, e1⟩
    · rcases whenInRange_cases a s (whenInRange b s
        (respond (.pair (s.core.rf.readCell a) (s.core.rf.readCell b)) s)) with ⟨hr, e2⟩ | ⟨hr, e2⟩
      · rcases whenInRange_cases b s (respond (.pair (s.core.rf.readCell a) (s.core.rf.readCell b)) s) with
          ⟨hr', e3⟩ | ⟨hr', e3⟩
        · exact .inr ⟨_, _, ⟨hc, hr, hr', rfl, rfl⟩, hx.trans (e1.trans (e2.trans e3))⟩
        · exact raised _ (hx.trans (e1.trans (e2.trans e3))) (.inr (.inr ⟨rfl, hc, hr, hr'⟩))
      · exact raised _ (hx.trans (e1.trans e2)) (.inr (.inl ⟨rfl, hc, hr⟩))
    · exact raised _ (hx.trans e1) (.inl ⟨rfl, hc⟩)
  | rfClear =>
    have hx : exec .rfClear s = _ := unlessHalted_of_not_halted s _ h
    rcases whenCreated_cases s (respond .none (s.withRf s.core.rf.clearCells)) with ⟨hc, e1⟩ | ⟨hc, e1⟩
    · exact .inr ⟨_, _, ⟨hc, rfl, rfl⟩, hx.trans e1⟩
    · exact raised _ (hx.trans e1) ⟨rfl, hc⟩
  | rfDump =>
    have hx : exec .rfDump s = _ := unlessHalted_of_not_halted s _ h
    rcases whenCreated_cases s (respond (.cells s.core.rf.listCells) s) with ⟨hc, e1⟩ | ⟨hc, e1⟩
    · exact .inr ⟨_, _, ⟨hc, rfl, rfl⟩, hx.trans e1⟩
    · exact raised _ (hx.trans e1) ⟨rfl, hc⟩

/-- A halted core takes no transaction. -/
theorem exec_of_halted (i : Instr) (s : State) (h : s.core.halted = true) : exec i s = .fault .halted := by
  cases i <;> exact unlessHalted_of_halted s _ h

/-- Inversion: a transaction that has a next state ran in a core that is not halted, and raised an error for its own cause or
succeeded with its own effect. -/
theorem exec_next {i : Instr} {s t : State} (h : exec i s = .next t) :
    s.core.halted = false ∧
    ((∃ e, Cause i s e ∧ t = s.afterError e) ∨ (∃ p c, Effect i s p c ∧ t = s.afterSuccess p c)) := by
  cases hh : s.core.halted
  · refine ⟨rfl, ?_⟩
    rcases exec_cases i s hh with ⟨e, hc, he⟩ | ⟨p, c, hf, he⟩
    · exact .inl ⟨e, hc, Host.Outcome.next.inj (h.symm.trans he)⟩
    · exact .inr ⟨p, c, hf, Host.Outcome.next.inj (h.symm.trans he)⟩
  · rw [exec_of_halted i s hh] at h; cases h

/-- Inversion of a step: it took a reset, or it ran the transaction a request decodes to. -/
theorem step_next {s t : State} (h : step s = .next t) :
    (∃ rest, s.inputs = .reset :: rest ∧ t = (s.withInputs rest).construct) ∨
    (∃ r rest i, s.inputs = .request r :: rest ∧ decode r = .ok i ∧ exec i (s.withInputs rest) = .next t) := by
  unfold step at h
  split at h
  · cases h
  · rename_i rest hi
    exact .inl ⟨rest, hi, (Host.Outcome.next.inj h).symm⟩
  · cases h
  · rename_i r rest hi
    split at h
    · cases h
    · rename_i i hd
      exact .inr ⟨r, rest, i, hi, hd, h⟩

@[simp] theorem State.afterError_responses (s : State) (e : Err) : (s.afterError e).responses = .err e :: s.responses := rfl
@[simp] theorem State.afterError_alu (s : State) (e : Err) : (s.afterError e).core.alu = s.core.alu := rfl
@[simp] theorem State.afterError_rf (s : State) (e : Err) : (s.afterError e).core.rf = s.core.rf := rfl
@[simp] theorem State.afterError_halted (s : State) (e : Err) :
    (s.afterError e).core.halted = decide (s.errorPolicy = .halt) := rfl
@[simp] theorem State.afterError_errorPolicy (s : State) (e : Err) : (s.afterError e).errorPolicy = s.errorPolicy := rfl
@[simp] theorem State.afterError_inputs (s : State) (e : Err) : (s.afterError e).inputs = s.inputs := rfl
@[simp] theorem State.afterSuccess_responses (s : State) (p : Payload) (c : CoreState) :
    (s.afterSuccess p c).responses = .ok p :: s.responses := rfl
@[simp] theorem State.afterSuccess_core (s : State) (p : Payload) (c : CoreState) : (s.afterSuccess p c).core = c := rfl
@[simp] theorem State.afterSuccess_errorPolicy (s : State) (p : Payload) (c : CoreState) :
    (s.afterSuccess p c).errorPolicy = s.errorPolicy := rfl
@[simp] theorem State.afterSuccess_inputs (s : State) (p : Payload) (c : CoreState) :
    (s.afterSuccess p c).inputs = s.inputs := rfl

end Sys2Proof.Machine
end

