-- ==== Sys2Proof/Laws/PerInstr.lean ====
section
/-! SUPPORT. Per instruction: the request an instruction is encoded to drives only the fields its selector lists. -/

namespace Sys2Proof.Laws

/-- The request of a well-formed instruction is well formed. -/
def RequestForm.Statement (i : Instr) : Prop := i.wellFormed = true → (encode i).wellFormed = true

theorem RequestForm.add (a b : Byte) : RequestForm.Statement (.add a b) := fun _ => rfl
theorem RequestForm.adc (a b : Byte) : RequestForm.Statement (.adc a b) := fun _ => rfl
theorem RequestForm.sub (a b : Byte) : RequestForm.Statement (.sub a b) := fun _ => rfl
theorem RequestForm.sbc (a b : Byte) : RequestForm.Statement (.sbc a b) := fun _ => rfl
theorem RequestForm.nor (a b : Byte) : RequestForm.Statement (.nor a b) := fun _ => rfl
theorem RequestForm.and (a b : Byte) : RequestForm.Statement (.and a b) := fun _ => rfl
theorem RequestForm.xor (a b : Byte) : RequestForm.Statement (.xor a b) := fun _ => rfl
theorem RequestForm.rsh (a b : Byte) : RequestForm.Statement (.rsh a b) := fun _ => rfl
theorem RequestForm.aluConfigure (lat : Latency) : RequestForm.Statement (.aluConfigure lat) :=
  fun _ => beq_self_eq_true _
theorem RequestForm.aluExecute (a b : Byte) (op : BitVec 3) : RequestForm.Statement (.aluExecute a b op) :=
  fun _ => beq_self_eq_true _
theorem RequestForm.aluLast : RequestForm.Statement .aluLast := fun _ => beq_self_eq_true _
theorem RequestForm.rfCreate (n : Byte) (z : Bool) (rl wl : Latency) : RequestForm.Statement (.rfCreate n z rl wl) :=
  fun _ => beq_self_eq_true _
theorem RequestForm.rfWrite (addr v : Byte) : RequestForm.Statement (.rfWrite addr v) := fun _ => beq_self_eq_true _
theorem RequestForm.rfRead (addr : Byte) : RequestForm.Statement (.rfRead addr) := fun _ => beq_self_eq_true _
theorem RequestForm.rfReadPair (a b : Byte) : RequestForm.Statement (.rfReadPair a b) := fun _ => beq_self_eq_true _
theorem RequestForm.rfClear : RequestForm.Statement .rfClear := fun _ => beq_self_eq_true _
theorem RequestForm.rfDump : RequestForm.Statement .rfDump := fun _ => beq_self_eq_true _

end Sys2Proof.Laws
end

