-- ==== Sys2Proof/Tests/Slice0.lean ====
section
/-! SUPPORT. The model's own tests. Expected values come from spec/95_test_vectors.md (named by its ids) or from the rule named;
each is one step on a small state. Then the witnesses: for each statement with hypotheses, a state and operands meeting them. -/

open Sys2Proof Sys2Proof.Machine Sys2Proof.Claims

namespace Sys2Proof.Tests

/-! ### Small states -/

/-- Reset, under `return` and under `halt`. -/
def fresh : State := State.start .ret []
def freshHalt : State := State.start .halt []

/-- The latency a script's number stands for. -/
def lat (n : Nat) : Latency := Config.latencyOf n

/-- `alu.configure 7` done, nothing else. -/
def conf : State := fresh.withAlu { configured := true, latency := some (lat 7), last := none }

/-- A created file of `n` cells with these cells stored, the ALU configured, under a policy. -/
def made (p : ErrorPolicy) (n : Byte) (z : Bool) (cell : Memory) : State :=
  { core :=
      { alu := { configured := true, latency := some (lat 7), last := some (mkResult 44 true) }
        rf := { created := true, size := some n, reserveZero := some z, readLatency := some (lat 1), writeLatency := some (lat 2),
                cell := cell }
        halted := false }
    errorPolicy := p, inputs := [], responses := [] }

/-- F9's and E5's file: size 4, zero, cells [0,5,6,7]. -/
def f4 : State := made .ret 4 true [(1, 5), (2, 6), (3, 7)]

/-- The same file, the ALU not configured. -/
def created : State := f4.withAlu Alu.reset

/-- F12's file: size 4, nozero, cells [8,5,6,7]. -/
def f4n : State := made .ret 4 false [(0, 8), (1, 5), (2, 6), (3, 7)]

/-- A halted core. -/
def stuck : State := { freshHalt with core := { freshHalt.core with halted := true } }

/-- The response a transaction gives. -/
def answer (r : Result) : Option Response :=
  match r with
  | .next t => t.responses.head?
  | .fault _ => none
  | .refused _ => none

/-- A projection of the next state. -/
def after {α : Type} (r : Result) (f : State → α) : Option α :=
  match r with
  | .next t => some (f t)
  | .fault _ => none
  | .refused _ => none

/-! ### Decoding: words written out from 30_encoding.md R71 and R76 -/

theorem test_decode_opcode_rows :
    decode (.opc 0b000#3 200 100) = .ok (.add 200 100) ∧ decode (.opc 0b001#3 200 100) = .ok (.adc 200 100) ∧
    decode (.opc 0b010#3 1 200) = .ok (.sub 1 200) ∧ decode (.opc 0b011#3 1 200) = .ok (.sbc 1 200) ∧
    decode (.opc 0b100#3 0xAA 0x55) = .ok (.nor 0xAA 0x55) ∧ decode (.opc 0b101#3 0xF0 0x3C) = .ok (.and 0xF0 0x3C) ∧
    decode (.opc 0b110#3 0x0F 0x01) = .ok (.xor 0x0F 0x01) ∧ decode (.opc 0b111#3 0x81 0) = .ok (.rsh 0x81 0) := by
  decide

/-- The encodings of P1's and P5's traces, `last` and `clear` among them. -/
theorem test_decode_transactions :
    decode (.txn 0b0000#4 { latency := (lat 7) }) = .ok (.aluConfigure (lat 7)) ∧
    decode (.txn 0b0001#4 { a := 0b11001000, b := 0b01100100, op := 0b010 }) = .ok (.aluExecute 200 100 0b010) ∧
    decode (.txn 0b0010#4 {}) = .ok .aluLast ∧
    decode (.txn 0b1000#4 { size := 0b00000100, reserveZero := true, readLatency := .first, writeLatency := (lat 3) }) =
      .ok (.rfCreate 4 true .first (lat 3)) ∧
    decode (.txn 0b1001#4 { addr := 0b00000001, value := 0b11001000 }) = .ok (.rfWrite 1 200) ∧
    decode (.txn 0b1010#4 { addr := 0b00000010 }) = .ok (.rfRead 2) ∧
    decode (.txn 0b1011#4 { addrA := 0b00000001, addrB := 0b00000010 }) = .ok (.rfReadPair 1 2) ∧
    decode (.txn 0b1100#4 {}) = .ok .rfClear ∧ decode (.txn 0b1101#4 {}) = .ok .rfDump := by
  refine ⟨rfl, ?_, ?_, rfl, ?_⟩ <;> decide

/-- E15 and R77: codes 0011 to 0111, 1110 and 1111 name no transaction. -/
theorem test_decode_unused_selectors :
    ∀ sel : BitVec 4, (sel ∈ [0b0011#4, 0b0100#4, 0b0101#4, 0b0110#4, 0b0111#4, 0b1110#4, 0b1111#4]) →
      decode (.txn sel {}) = .error (.noTransaction sel) := by
  decide

/-- A word of the table in whole bytes: the selector it names, else the opcode (log 12). -/
theorem test_table_words_in_bytes :
    decodeTableWord 8 0b0000 = some (.aluConfigure .first) ∧ decodeTableWord 8 0b0001 = some (.aluExecute 0 0 0) ∧
    decodeTableWord 8 0b0011 = some (.sbc 0 0) ∧ decodeTableWord 8 0b0111 = some (.rsh 0 0) ∧
    decodeTableWord 8 0b1000 = some (.rfCreate 0 false .first .first) ∧ decodeTableWord 8 0b1110 = none ∧
    decodeTableWord 8 0b10000 = none := by
  decide

/-! ### WellFormed: an ill-formed term for each check -/

/-- A `read` request that drives the `value` field, which R76 does not list for it. -/
theorem test_request_with_stray_field_is_ill_formed :
    (Request.txn 0b1010#4 { addr := 1, value := 1 }).wellFormed = false ∧
    (Request.txn 0b1010#4 { addr := 1 }).wellFormed = true := by
  decide

/-- The same label twice. -/
theorem test_script_with_a_label_twice_is_ill_formed :
    scriptWellFormed [.label "a", .label "a"] = false ∧ scriptWellFormed [.label "a", .ifGoto .z "a"] = true := by
  decide

/-- A `goto` to a label the script does not have. -/
theorem test_script_with_a_missing_label_is_ill_formed : scriptWellFormed [.label "a", .ifGoto .z "b"] = false := by
  decide

/-! ### The ALU, against section 1.1 (V1 to V5) and section 2.2 -/

theorem test_add_vectors :
    answer (exec (.add 200 100) conf) = some (.ok (.result ⟨44, .ofPrimaries true false true⟩)) ∧
    answer (exec (.add 255 1) conf) = some (.ok (.result ⟨0, .ofPrimaries true true true⟩)) := by decide

theorem test_adc_vectors :
    answer (exec (.adc 200 100) conf) = some (.ok (.result ⟨45, .ofPrimaries true false false⟩)) ∧
    answer (exec (.adc 0 0) conf) = some (.ok (.result ⟨1, .ofPrimaries false false false⟩)) := by decide

theorem test_sub_vectors :
    answer (exec (.sub 1 200) conf) = some (.ok (.result ⟨57, .ofPrimaries false false false⟩)) ∧
    answer (exec (.sub 1 1) conf) = some (.ok (.result ⟨0, .ofPrimaries true true true⟩)) := by decide

theorem test_sbc_vectors :
    answer (exec (.sbc 1 200) conf) = some (.ok (.result ⟨56, .ofPrimaries false false true⟩)) ∧
    answer (exec (.sbc 0 255) conf) = some (.ok (.result ⟨0, .ofPrimaries false true true⟩)) := by decide

theorem test_nor_vectors :
    answer (exec (.nor 0xAA 0x55) conf) = some (.ok (.result ⟨0, .ofPrimaries false true true⟩)) ∧
    answer (exec (.nor 0 0) conf) = some (.ok (.result ⟨255, .ofPrimaries false false false⟩)) := by decide

theorem test_and_vectors :
    answer (exec (.and 200 100) conf) = some (.ok (.result ⟨64, .ofPrimaries false false true⟩)) := by decide

theorem test_xor_vectors :
    answer (exec (.xor 200 100) conf) = some (.ok (.result ⟨172, .ofPrimaries false false true⟩)) := by decide

theorem test_rsh_vectors :
    answer (exec (.rsh 1 0) conf) = some (.ok (.result ⟨0, .ofPrimaries false true true⟩)) ∧
    answer (exec (.rsh 255 255) conf) = some (.ok (.result ⟨127, .ofPrimaries false false false⟩)) := by decide

/-- Section 2.1: the raw flag values 0x2A, 0x1A, 0x16, 0x29, 0x19, 0x15. -/
theorem test_flag_encodings :
    (FlagSet.ofPrimaries false false false).bits = 0b101010 ∧ (FlagSet.ofPrimaries false false true).bits = 0b011010 ∧
    (FlagSet.ofPrimaries false true true).bits = 0b010110 ∧ (FlagSet.ofPrimaries true false false).bits = 0b101001 ∧
    (FlagSet.ofPrimaries true false true).bits = 0b011001 ∧ (FlagSet.ofPrimaries true true true).container = 0x15 := by
  decide

/-- P1 line 9: `alu.execute SUB, 200, 100`; and E1. -/
theorem test_execute :
    answer (exec (.aluExecute 200 100 0b010) conf) = some (.ok (.result ⟨100, .ofPrimaries true false true⟩)) ∧
    answer (exec (.aluExecute 1 2 0b000) fresh) = some (.err .notConfigured) := by decide

/-- E4 and E13: a second `configure` leaves the latency and the last result. -/
theorem test_second_configure :
    answer (exec (.aluConfigure (lat 9)) conf) = some (.err .alreadyConfigured) ∧
    after (exec (.aluConfigure (lat 9)) f4) (fun t => t.core.alu) = some f4.core.alu := ⟨by decide, rfl⟩

/-- S1 and S3. -/
theorem test_last :
    answer (exec .aluLast fresh) = some (.ok (.last none)) ∧
    after (exec (.sub 1 200) conf) (fun t => answer (exec .aluLast t)) =
      some (some (.ok (.last (some ⟨57, .ofPrimaries false false false⟩)))) := by decide

/-! ### The register file, against section 2.4 and 2.5 -/

/-- F1 and E5. -/
theorem test_create :
    after (exec (.rfCreate 4 true .first .first) fresh) (fun t => t.core.rf.listCells) =
      some [(0, 0), (1, 0), (2, 0), (3, 0)] ∧
    after (exec (.rfCreate 8 false (lat 1) (lat 1)) f4) (fun t => (t.core, t.responses)) =
      some (f4.core, [.err .alreadyCreated]) := ⟨by decide, rfl⟩

/-- F5, F6, F3: the discarded write, the ordinary write of cell 0, the last cell. -/
theorem test_write :
    after (exec (.rfWrite 0 42) f4) (fun t => (t.core, t.responses)) = some (f4.core, [.ok (.notice true)]) ∧
    after (exec (.rfWrite 0 42) f4n) (fun t => (t.core.rf.listCells, t.responses)) =
      some ([(0, 42), (1, 5), (2, 6), (3, 7)], [.ok (.notice false)]) ∧
    after (exec (.rfWrite 3 0) f4) (fun t => t.core.rf.cell) = some [(1, 5), (2, 6)] := ⟨rfl, by decide, by decide⟩

/-- E7 and F19: one past the last cell, and index 255. -/
theorem test_write_out_of_range :
    answer (exec (.rfWrite 4 1) f4) = some (.err (.addressOutOfRange 4 4)) ∧
    answer (exec (.rfWrite 255 1) (made .ret 255 true [])) = some (.err (.addressOutOfRange 255 255)) ∧
    answer (exec (.rfWrite 254 1) (made .ret 255 true [])) = some (.ok (.notice false)) := by decide

/-- F4, E6, E2, F17. -/
theorem test_read :
    answer (exec (.rfRead 3) f4) = some (.ok (.value 7)) ∧
    answer (exec (.rfRead 4) f4) = some (.err (.addressOutOfRange 4 4)) ∧
    answer (exec (.rfRead 0) fresh) = some (.err .notCreated) ∧
    answer (exec (.rfRead 0) (made .ret 0 false [])) = some (.err (.addressOutOfRange 0 0)) := by decide

/-- F9, F11, E8, E9, E12. -/
theorem test_read_pair :
    answer (exec (.rfReadPair 1 3) f4) = some (.ok (.pair 5 7)) ∧
    answer (exec (.rfReadPair 0 1) f4) = some (.ok (.pair 0 5)) ∧
    answer (exec (.rfReadPair 1 4) f4) = some (.err (.addressOutOfRange 4 4)) ∧
    answer (exec (.rfReadPair 9 4) f4) = some (.err (.addressOutOfRange 9 4)) ∧
    answer (exec (.rfReadPair 9 9) fresh) = some (.err .notCreated) := by decide

/-- F12, F14, E11. -/
theorem test_clear :
    after (exec .rfClear f4n) (fun t => (t.core.rf.listCells, t.core.rf.reserveZero)) =
      some ([(0, 0), (1, 0), (2, 0), (3, 0)], some false) ∧
    answer (exec .rfClear fresh) = some (.err .notCreated) := by decide

/-- F15, F16, E3. -/
theorem test_dump :
    answer (exec .rfDump f4) = some (.ok (.cells [(0, 0), (1, 5), (2, 6), (3, 7)])) ∧
    answer (exec .rfDump (made .ret 0 false [])) = some (.ok (.cells [])) ∧
    answer (exec .rfDump fresh) = some (.err .notCreated) := by decide

/-! ### The step, halting, the orchestrator, the script text -/

/-- E14: under halt the error sets `halted`, then no step. -/
theorem test_halt :
    after (exec (.aluExecute 1 2 0) freshHalt) (fun t => (t.core.halted, t.responses)) =
      some (true, [.err .notConfigured]) ∧
    after (exec (.aluConfigure .first) stuck) (fun t => t) = none := by decide

/-- A reset input brings a halted core back to Unconfigured (R230, log 16). -/
theorem test_reset_input :
    after (step (stuck.withInputs [.reset])) (fun t => t.core) = some CoreState.reset := by decide

/-- A presented request is the next step, from reset. -/
theorem test_step_from_reset :
    after (step (State.reset.withFetchWord 4 0b0000)) (fun t => t.core.alu.configured) = some true := by decide

/-- R191: a `read_pair` with a bad second address ends the expansion, nothing executed or written. -/
theorem test_pseudo_instruction_stops :
    (match runPseudo ⟨.arith .sub, some 2, .reg 2, .reg 9⟩ ⟨f4, none, 0⟩ with
      | .ok o => some (o.machine.core.rf.readCell 2, o.flags, o.machine.responses)
      | .error _ => none) = some (6, none, [.err (.addressOutOfRange 9 4)]) := by decide

/-- P4's `SUB r2, r2, #1` with r2 = 6: cell, flags kept. -/
theorem test_pseudo_instruction :
    (match runPseudo ⟨.arith .sub, some 2, .reg 2, .imm 1⟩ ⟨f4, none, 0⟩ with
      | .ok o => some (o.machine.core.rf.readCell 2, o.flags, o.machine.responses.length)
      | .error _ => none) = some (5, some (FlagSet.ofPrimaries true false false), 3) := by decide

/-- R194: a flag asked for before any `execute` stops the orchestrator (log 19). -/
theorem test_no_flags : scriptStep [.ifGoto .z "a"] ⟨f4, none, 0⟩ = .error .noFlags := by decide

/-- Lines of P1, P2 and P4 (R79, R191, R194). -/
theorem test_script_text :
    parseLine "SUB r0, r1, #0x1F   ; comment".toList =
      some (.act (.pseudo ⟨.arith .sub, some 0, .reg 1, .imm 31⟩)) ∧
    parseLine "rf.create     4, zero, 0, 5".toList = some (.act (.transaction (.rfCreate 4 true (lat 0) (lat 5)))) ∧
    parseLine "alu.execute   XOR, 1, 0b10".toList = some (.act (.transaction (.aluExecute 1 2 0b110))) ∧
    parseLine "loop:".toList = some (.label "loop") ∧ parseLine "rf.write r300, 1".toList = none := by
  refine ⟨by decide, rfl, ?_⟩; decide

theorem test_script_text_control_lines :
    parseLine "if NZ goto loop".toList = some (.ifGoto .nz "loop") ∧
    parseLine "if C then ADC r6, r2, r4 else ADD -, r2, r4".toList =
      some (.ifThen .c (.pseudo ⟨.arith .adc, some 6, .reg 2, .reg 4⟩)
        (some (.pseudo ⟨.arith .add, none, .reg 2, .reg 4⟩))) := by decide

/-- R241: a pair read consumes the read latency once, a dump none. -/
theorem test_advisory_latency :
    advisoryLatency (.rfReadPair 1 2) f4 = .once (some (lat 1)) ∧ advisoryLatency .rfDump f4 = .noLatency := ⟨rfl, by decide⟩

/-! ### Witnesses: for each statement with hypotheses, a state and operands that meet them all -/

theorem ready_f4 : Ready f4 4 true := ⟨rfl, rfl, rfl, rfl⟩
theorem ready_f4n : Ready f4n 4 false := ⟨rfl, rfl, rfl, rfl⟩
theorem ready_size_zero : Ready (made .ret 0 true []) 0 true := ⟨rfl, rfl, rfl, rfl⟩
theorem ready_size_one : Ready (made .ret 1 false []) 1 false := ⟨rfl, rfl, rfl, rfl⟩
theorem ready_size_full : Ready (made .halt 255 true [(254, 9)]) 255 true := ⟨rfl, rfl, rfl, rfl⟩

theorem witness_BootConfiguresAndCreatesInEitherOrder :
    [Instr.rfCreate 4 true (lat 1) (lat 2), .aluConfigure (lat 7)] ∈
      [[Instr.aluConfigure (lat 7), .rfCreate 4 true (lat 1) (lat 2)], [.rfCreate 4 true (lat 1) (lat 2), .aluConfigure (lat 7)]] := by simp

theorem witness_StepRunsTheDecodedRequest :
    (f4.present (.opc 1 2 3)).inputs = .request (.opc 1 2 3) :: f4.inputs ∧
    decode (.opc 1 2 3) = .ok (.adc 2 3) ∧ (Instr.adc 2 3).wellFormed = true := by decide

theorem witness_PresentedTableWordRunsNext :
    decodeTableWord 3 0b101 = some (.and 0 0) ∧ decodeTableWord 4 0b1101 = some .rfDump ∧
    decodeTableWord 8 0b0111 = some (.rsh 0 0) := by decide

theorem witness_ResetInputPutsEveryFieldAtItsResetValue :
    (stuck.withInputs [.reset, .request (.opc 0 1 1)]).inputs = .reset :: [.request (.opc 0 1 1)] := by decide

/-- The first and the last selector of each range of unused codes, and their neighbours that are used. -/
theorem witness_UnusedSelectorsHaveNoStep :
    (∀ sel ∈ [0b0011#4, 0b0111#4, 0b1110#4, 0b1111#4], sel.toNat ∈ [3, 4, 5, 6, 7, 14, 15]) ∧
    (∀ sel ∈ [0b0000#4, 0b0010#4, 0b1000#4, 0b1101#4], sel.toNat ∉ [3, 4, 5, 6, 7, 14, 15]) ∧
    (f4.present (.txn 0b0011#4 {})).inputs = .request (.txn 0b0011#4 {}) :: f4.inputs := by decide

theorem witness_OverlappingRequestsAreRefused :
    (f4.withInputs [.overlapping (.opc 0 1 1) (.opc 0 2 2) []]).inputs =
      .overlapping (.opc 0 1 1) (.opc 0 2 2) [] :: [] := by decide

theorem witness_DecodeAndEncodeAgree :
    (Instr.rfWrite 255 255).wellFormed = true ∧ (Request.txn 0b1001#4 { addr := 255, value := 1 }).wellFormed = true ∧
    decode (.txn 0b1001#4 { addr := 255, value := 1 }) = .ok (.rfWrite 255 1) ∧
    (Request.opc 0b111#3 0 255).wellFormed = true ∧ decode (.opc 0b111#3 0 255) = .ok (.rsh 0 255) := by decide

/-- The hypotheses of the clauses of `Computes` (the eight opcode statements), configured and not, under both policies; the
operand corners are in the vectors above. -/
theorem witness_Computes :
    conf.core.halted = false ∧ conf.core.alu.configured = true ∧ f4n.core.halted = false ∧
    f4n.core.alu.configured = true ∧ fresh.core.halted = false ∧ fresh.core.alu.configured = false ∧
    freshHalt.core.halted = false ∧ freshHalt.core.alu.configured = false := by decide

/-- Every operand meets the hypotheses; the row shown is SBC's, at the operands 0 and 255 where its two clauses meet. -/
theorem witness_CarryFlagIsTheAddersCarryOut :
    conf.core.halted = false ∧ conf.core.alu.configured = true ∧
    (Instr.sbc 0 255, (0 : Byte).toNat + (255 - (255 : Byte).toNat)) ∈
      [(Instr.add 0 255, (0 : Byte).toNat + (255 : Byte).toNat), (.adc 0 255, (0 : Byte).toNat + (255 : Byte).toNat + 1),
        (.sub 0 255, (0 : Byte).toNat + (255 - (255 : Byte).toNat) + 1),
        (.sbc 0 255, (0 : Byte).toNat + (255 - (255 : Byte).toNat))] := by decide

theorem witness_LogicGroupComputesItsFunctionAndReportsNotCarry :
    conf.core.halted = false ∧ conf.core.alu.configured = true ∧
    (Instr.rsh 1 0, ((1 : Byte).toNat ||| (0 : Byte).toNat) / 2) ∈
      [(Instr.nor 1 0, 255 - ((1 : Byte).toNat ||| (0 : Byte).toNat)), (.and 1 0, (1 : Byte).toNat &&& (0 : Byte).toNat),
        (.xor 1 0, (1 : Byte).toNat ^^^ (0 : Byte).toNat), (.rsh 1 0, ((1 : Byte).toNat ||| (0 : Byte).toNat) / 2)] := by
  decide

/-- The last opcode of the arithmetic group and the first of the logic group. -/
theorem witness_AluExecuteDispatchesOnTheGroupBit :
    conf.core.halted = false ∧ conf.core.alu.configured = true ∧ (0b011#3).getLsbD 2 = false ∧
    (0b100#3).getLsbD 2 = true := by decide

theorem witness_ExecuteBeforeConfigureRaisesNotConfigured :
    (Instr.sbc 1 2).isExecute = true ∧ (Instr.aluExecute 1 2 7).isExecute = true ∧ fresh.core.halted = false ∧
    fresh.core.alu.configured = false := by decide

theorem sound_alu_f4 : f4.core.alu.Inv :=
  ⟨rfl, fun h => (by cases h), fun r h => (by cases h; rfl)⟩

/-- Each of the three ways a flag set is answered or kept. -/
theorem witness_EveryAnsweredFlagSetIsComplementary :
    f4.core.alu.Inv ∧
    (∃ t r, exec (.xor 3 3) f4 = .next t ∧ t.responses = .ok (.result r) :: f4.responses) ∧
    (∃ t r, exec .aluLast f4 = .next t ∧ t.responses = .ok (.last (some r)) :: f4.responses) ∧
    (∃ t r p, exec .rfDump f4 = .next t ∧ t.responses = .ok p :: f4.responses ∧ t.core.alu.last = some r) :=
  ⟨sound_alu_f4, ⟨_, _, rfl, rfl⟩, ⟨_, _, rfl, rfl⟩, ⟨_, _, _, rfl, rfl, rfl⟩⟩

theorem witness_ExecuteAnswerDependsOnOperandsAndOpcodeOnly :
    (Instr.adc 1 2).isExecute = true ∧ f4.core.halted = false ∧ conf.core.halted = false ∧
    f4.core.alu.configured = true ∧ conf.core.alu.configured = true := by decide

theorem witness_OnlyASuccessfulExecuteWritesTheLastResult :
    ∃ t, exec (.add 1 1) f4 = .next t ∧ t.core.alu.last ≠ f4.core.alu.last := ⟨_, rfl, by decide⟩

theorem witness_ConfigureSetsTheLatencyOnce :
    fresh.core.halted = false ∧ fresh.core.alu.configured = false ∧ conf.core.halted = false ∧
    conf.core.alu.configured = true := by decide

theorem witness_LastAnswersTheMostRecentResult :
    fresh.core.halted = false ∧ (Instr.sub 1 200).isExecute = true ∧
    ∃ t r, exec (.sub 1 200) conf = .next t ∧ t.responses = .ok (.result r) :: conf.responses :=
  ⟨rfl, rfl, _, _, rfl, rfl⟩

theorem witness_CreateAllocatesZeroedCellsOnce :
    fresh.core.halted = false ∧ fresh.core.rf.created = false ∧ f4.core.halted = false ∧ f4.core.rf.created = true := by
  decide

/-- Out of range at the size, at size 0 and at 255; discarded at index 0; written at index 0, at the last index and at 254. -/
theorem witness_WriteSetsOneCellOrIsDiscarded :
    (fresh.core.halted = false ∧ fresh.core.rf.created = false) ∧ Ready f4 4 true ∧ Ready f4n 4 false ∧
    Ready (made .ret 0 true []) 0 true ∧ Ready (made .halt 255 true [(254, 9)]) 255 true ∧
    (4 : Byte).toNat ≤ (4 : Byte).toNat ∧ (0 : Byte).toNat ≤ (0 : Byte).toNat ∧ (255 : Byte).toNat ≤ (255 : Byte).toNat ∧
    (¬(4 : Byte).toNat ≤ (0 : Byte).toNat ∧ (true = true ∧ (0 : Byte) = 0)) ∧
    (¬(4 : Byte).toNat ≤ (0 : Byte).toNat ∧ ¬(false = true ∧ (0 : Byte) = 0)) ∧
    (¬(4 : Byte).toNat ≤ (3 : Byte).toNat ∧ ¬(true = true ∧ (3 : Byte) = 0)) ∧
    (¬(255 : Byte).toNat ≤ (254 : Byte).toNat ∧ ¬(true = true ∧ (254 : Byte) = 0)) :=
  ⟨by decide, ready_f4, ready_f4n, ready_size_zero, ready_size_full, by decide, by decide, by decide, by decide, by decide,
    by decide, by decide⟩

theorem witness_ReadAnswersTheCell :
    (fresh.core.halted = false ∧ fresh.core.rf.created = false) ∧ Ready f4 4 true ∧
    (4 : Byte).toNat ≤ (4 : Byte).toNat ∧ ¬(4 : Byte).toNat ≤ (3 : Byte).toNat ∧ ¬(4 : Byte).toNat ≤ (0 : Byte).toNat :=
  ⟨by decide, ready_f4, by decide, by decide, by decide⟩

/-- Both bad, only the second bad, both good (the same cell twice too). -/
theorem witness_ReadPairAnswersBothCellsOfOneState :
    (fresh.core.halted = false ∧ fresh.core.rf.created = false) ∧ Ready f4 4 true ∧
    ((4 : Byte).toNat ≤ (4 : Byte).toNat) ∧ (¬(4 : Byte).toNat ≤ (3 : Byte).toNat ∧ (4 : Byte).toNat ≤ (4 : Byte).toNat) ∧
    (¬(4 : Byte).toNat ≤ (0 : Byte).toNat ∧ ¬(4 : Byte).toNat ≤ (3 : Byte).toNat) :=
  ⟨by decide, ready_f4, by decide, by decide, by decide⟩

theorem witness_ReadPairEqualsTwoReads :
    Ready f4 4 true ∧ (0 : Byte).toNat < (4 : Byte).toNat ∧ (3 : Byte).toNat < (4 : Byte).toNat :=
  ⟨ready_f4, by decide, by decide⟩

theorem witness_ClearZeroesEveryCellAndKeepsTheConfiguration :
    (fresh.core.halted = false ∧ fresh.core.rf.created = false) ∧ Ready f4 4 true ∧ Ready f4n 4 false ∧
    (3 : Byte).toNat < (4 : Byte).toNat :=
  ⟨by decide, ready_f4, ready_f4n, by decide⟩

theorem witness_DumpListsEveryCellInOrder :
    (fresh.core.halted = false ∧ fresh.core.rf.created = false) ∧ Ready f4 4 true ∧ Ready (made .ret 0 true []) 0 true ∧
    (0 : Byte).toNat < (4 : Byte).toNat ∧ (3 : Byte).toNat < (4 : Byte).toNat :=
  ⟨by decide, ready_f4, ready_size_zero, by decide, by decide⟩

theorem witness_ZeroRegisterLawsHold :
    Ready f4 4 true ∧ Ready (made .ret 1 false []) 1 false ∧ 0 < (1 : Byte).toNat ∧ 0 < (4 : Byte).toNat :=
  ⟨ready_f4, ready_size_one, by decide, by decide⟩

/-- A history with a write, an error (under return), a clear and a write of the same cell. -/
theorem witness_ReadSeesTheLatestWriteOrClear :
    Ready f4 4 true ∧ (3 : Byte).toNat < (4 : Byte).toNat ∧
    ∃ t, runAll [.rfWrite 3 1, .rfWrite 4 2, .rfClear, .rfWrite 3 9] f4 = some t ∧ t.core.halted = false :=
  ⟨ready_f4, by decide, _, rfl, rfl⟩

theorem witness_OnlyWriteClearAndCreateChangeCells :
    (∃ t, exec (.rfWrite 3 1) f4 = .next t ∧ t.core.rf.cell.read 3 ≠ f4.core.rf.cell.read 3) ∧
    (∃ t, exec .rfClear f4 = .next t ∧ t.core.rf.cell.read 1 ≠ f4.core.rf.cell.read 1) ∧
    (∃ t, exec (.rfReadPair 1 2) f4 = .next t ∧ t.errorPolicy = .ret) :=
  ⟨⟨_, rfl, by decide⟩, ⟨_, rfl, by decide⟩, ⟨_, rfl, rfl⟩⟩

/-- Each of the five errors. -/
theorem witness_EveryErrorHasItsCause :
    (∃ t, exec (.and 1 2) fresh = .next t ∧ t.responses = .err .notConfigured :: fresh.responses) ∧
    (∃ t, exec .rfDump fresh = .next t ∧ t.responses = .err .notCreated :: fresh.responses) ∧
    (∃ t, exec (.aluConfigure (lat 1)) f4 = .next t ∧ t.responses = .err .alreadyConfigured :: f4.responses) ∧
    (∃ t, exec (.rfCreate 1 true (lat 1) (lat 1)) f4 = .next t ∧ t.responses = .err .alreadyCreated :: f4.responses) ∧
    (∃ t, exec (.rfReadPair 0 4) f4 = .next t ∧ t.responses = .err (.addressOutOfRange 4 4) :: f4.responses) :=
  ⟨⟨_, rfl, rfl⟩, ⟨_, rfl, rfl⟩, ⟨_, rfl, rfl⟩, ⟨_, rfl, rfl⟩, ⟨_, rfl, rfl⟩⟩

theorem witness_AnErrorChangesNoState :
    (∃ t, exec (.rfRead 9) f4 = .next t ∧ t.responses = .err (.addressOutOfRange 9 4) :: f4.responses) ∧
    f4.errorPolicy = .ret ∧
    (∃ t, exec (.add 1 2) freshHalt = .next t ∧ t.responses = .err .notConfigured :: freshHalt.responses) :=
  ⟨⟨_, rfl, rfl⟩, rfl, ⟨_, rfl, rfl⟩⟩

/-- An error under halt, a success under halt; a halted core; a halted core that a reset input moves. -/
theorem witness_HaltPolicyStopsTheCoreForGood :
    (∃ t r, exec (.add 1 2) freshHalt = .next t ∧ t.responses = r :: freshHalt.responses) ∧
    (∃ t r, exec .aluLast freshHalt = .next t ∧ t.responses = r :: freshHalt.responses) ∧ stuck.core.halted = true ∧
    ((stuck.withInputs [.reset]).core.halted = true ∧ ∃ t, step (stuck.withInputs [.reset]) = .next t) :=
  ⟨⟨_, _, rfl, rfl⟩, ⟨_, _, rfl, rfl⟩, rfl, rfl, _, rfl⟩

theorem witness_AfterAnErrorTheNextTransactionIsTakenNormally :
    f4.errorPolicy = .ret ∧
    ∃ t, exec (.rfRead 4) f4 = .next t ∧ t.responses = .err (.addressOutOfRange 4 4) :: f4.responses :=
  ⟨rfl, _, rfl, rfl⟩

theorem witness_ExecuteSucceedsWhenRetriedAfterConfigure :
    (Instr.rsh 1 2).isExecute = true ∧ fresh.errorPolicy = .ret ∧ fresh.core.halted = false ∧
    fresh.core.alu.configured = false := by decide

theorem witness_EveryTransactionGetsOneResponse : f4.core.halted = false ∧ freshHalt.core.halted = false := by decide

theorem witness_ConfigurationIsWrittenOnce :
    (∃ t, exec (.rfCreate 1 true .first .first) f4 = .next t) ∧ f4.core.alu.configured = true ∧ f4.core.rf.created = true ∧
    (∃ t, exec (.aluConfigure (lat 3)) fresh = .next t ∧ fresh.core.alu.configured = false ∧
      t.core.alu.configured = true ∧ fresh.configOutputs ≠ t.configOutputs) ∧
    (∃ t, exec (.rfCreate 1 true .first .first) fresh = .next t ∧ fresh.core.rf.created = false ∧ t.core.rf.created = true) ∧
    (∃ t, step (f4.present (.opc 0 1 1)) = .next t) ∧ (∀ rest, (f4.present (.opc 0 1 1)).inputs ≠ .reset :: rest) :=
  ⟨⟨_, rfl⟩, rfl, rfl, ⟨_, rfl, by decide⟩, ⟨_, rfl, by decide⟩, ⟨_, rfl⟩, fun _ h => (by cases h)⟩

theorem witness_TheTwoUnitsShareNoState :
    ((Instr.add 1 2).isAlu = true ∧ ∃ r c, Answers (.add 1 2) f4 r c) ∧
    ((Instr.rfWrite 1 2).isAlu = false ∧ ∃ r c, Answers (.rfWrite 1 2) f4 r c) ∧
    ∃ r c, Answers (.rfRead 4) (made .halt 4 true []) r c :=
  ⟨⟨rfl, _, _, rfl⟩, ⟨rfl, _, _, rfl⟩, _, _, rfl⟩

theorem witness_AluAndRegisterFileTransactionsCommute :
    (Instr.sub 1 2).isAlu = true ∧ (Instr.rfWrite 1 2).isAlu = false ∧ f4.errorPolicy = .ret ∧
    f4.core.halted = false := by decide

theorem witness_LatencyValuesChangeNothing :
    (∃ r c, Answers (.rfCreate 4 true (lat 1) (lat 2)) fresh r c) ∧ (∃ r c, Answers (.rfReadPair 1 2) f4 r c) :=
  ⟨⟨_, _, rfl⟩, ⟨_, _, rfl⟩⟩

/-- A state that meets the invariant, with a next step. -/
theorem witness_EveryStepKeepsTheInvariant :
    (State.start .ret [.request (.txn 0b1000#4 { size := 4, reserveZero := true })]).Inv ∧
    ∃ t, step (State.start .ret [.request (.txn 0b1000#4 { size := 4, reserveZero := true })]) = .next t :=
  ⟨⟨⟨rfl, fun _ => rfl, fun _ h => (by cases h)⟩,
      ⟨rfl, rfl, rfl, rfl, by decide, fun _ h => (by simp [State.start, CoreState.reset, RegFile.reset] at h),
        fun _ => rfl⟩, fun h => (by cases h), fun _ h => (by simp [State.start] at h)⟩, _, rfl⟩

/-- Reachable states: with a created file of one cell, reserved, after a `write` of cell 0, the ALU not configured; with a
stored result; halted. -/
theorem witness_ReachableStatesObeyTheStateRules :
    (∃ s, Reachable s ∧ s.core.rf.created = true ∧ s.core.rf.reserveZero = some true ∧
      (∃ n, s.core.rf.size = some n ∧ 1 ≤ n.toNat) ∧ s.core.alu.configured = false) ∧
    (∃ s r, Reachable s ∧ s.core.alu.last = some r) ∧ (∃ s, Reachable s ∧ s.core.halted = true) :=
  ⟨⟨_, .stepped _ _ (.stepped _ _ (.start .ret
      [.request (.txn 0b1000#4 { size := 1, reserveZero := true }),
       .request (.txn 0b1001#4 { addr := 0, value := 5 })]) rfl) rfl, rfl, rfl, ⟨_, rfl, by decide⟩, rfl⟩,
    ⟨_, _, .stepped _ _ (.stepped _ _ (.start .ret
      [.request (.txn 0b0000#4 {}), .request (.opc 0b000#3 1 2)]) rfl) rfl, rfl⟩,
    ⟨_, .stepped _ _ (.start .halt [.request (.opc 0b000#3 1 2)]) rfl, rfl⟩⟩

/-- Destinations: an ordinary cell, a reserved cell 0, none. -/
theorem witness_PseudoInstructionReadsExecutesAndWritesBack :
    Ready f4 4 true ∧ f4.core.alu.configured = true ∧ sourceInRange 4 (.reg 3) ∧ sourceInRange 4 (.imm 255) ∧
    (∀ d : Byte, some (3 : Byte) = some d → d.toNat < (4 : Byte).toNat) ∧
    (∀ d : Byte, some (0 : Byte) = some d → d.toNat < (4 : Byte).toNat) ∧
    (∀ d : Byte, (none : Option Byte) = some d → d.toNat < (4 : Byte).toNat) :=
  ⟨ready_f4, rfl, (by decide : (3 : Byte).toNat < (4 : Byte).toNat), trivial, fun _ h => by cases h; decide,
    fun _ h => by cases h; decide, fun _ h => by cases h⟩

theorem no_access (s : State) : AccessSucceeds s [] := fun _ h => absurd h List.not_mem_nil

theorem below_four {s : State} {regs : List Byte} (hc : s.core.rf.created = true) (hn : s.core.rf.size = some 4)
    (h : ∀ i ∈ regs, i.toNat < (4 : Byte).toNat) : AccessSucceeds s regs :=
  fun i hi => ⟨hc, 4, hn, h i hi⟩

/-- NotCreated at the read; the first source at the size, and the second with the first at the last index or a number, out of
range; NotConfigured with all reads fine, and with no read; a write-back out of range, and one before `create`. -/
theorem witness_PseudoInstructionStopsAtTheFirstError :
    (fresh.core.halted = false ∧ f4.core.halted = false) ∧
    AccessRaises fresh (sourceRegs ⟨.arith .add, none, .reg 0, .imm 1⟩) .notCreated ∧
    AccessRaises f4 (sourceRegs ⟨.logic .xor, some 1, .reg 4, .reg 255⟩) (.addressOutOfRange 4 4) ∧
    AccessRaises f4 (sourceRegs ⟨.logic .xor, some 1, .reg 3, .reg 4⟩) (.addressOutOfRange 4 4) ∧
    AccessRaises f4 (sourceRegs ⟨.logic .xor, some 1, .imm 3, .reg 4⟩) (.addressOutOfRange 4 4) ∧
    (AccessSucceeds created (sourceRegs ⟨.logic .xor, some 1, .reg 0, .reg 3⟩) ∧ created.core.alu.configured = false) ∧
    (AccessSucceeds fresh (sourceRegs ⟨.logic .xor, some 1, .imm 0, .imm 3⟩) ∧ fresh.core.alu.configured = false) ∧
    (AccessSucceeds f4 (sourceRegs ⟨.logic .xor, some 4, .reg 0, .imm 3⟩) ∧ f4.core.alu.configured = true ∧
      AccessRaises f4 (some (4 : Byte)).toList (.addressOutOfRange 4 4)) ∧
    (AccessSucceeds conf (sourceRegs ⟨.logic .xor, some 4, .imm 0, .imm 3⟩) ∧ conf.core.alu.configured = true ∧
      AccessRaises conf (some (4 : Byte)).toList .notCreated) :=
  ⟨⟨rfl, rfl⟩, .inl ⟨by decide, rfl, rfl⟩, .inr ⟨rfl, 4, 4, rfl, rfl, rfl⟩, .inr ⟨rfl, 4, 4, rfl, rfl, rfl⟩,
    .inr ⟨rfl, 4, 4, rfl, rfl, rfl⟩, ⟨below_four rfl rfl (by decide), rfl⟩, ⟨no_access _, rfl⟩,
    ⟨below_four rfl rfl (by decide), rfl, .inr ⟨rfl, 4, 4, rfl, rfl, rfl⟩⟩,
    ⟨no_access _, rfl, .inl ⟨by decide, rfl, rfl⟩⟩⟩

theorem witness_CarryChainComputesMultiByteSumsAndDifferences : [((0xC8 : Byte), (0x64 : Byte)), (0x01, 0x00)] ≠ [] := by
  decide

theorem witness_SixteenBitAdditionScriptAdds :
    Ready (made .ret 7 true [(1, 0xC8), (2, 1), (3, 0x64)]) 7 true ∧
    (made .ret 7 true [(1, 0xC8), (2, 1), (3, 0x64)]).core.alu.configured = true ∧ 7 ≤ (7 : Byte).toNat :=
  ⟨⟨rfl, rfl, rfl, rfl⟩, rfl, by decide⟩

end Sys2Proof.Tests
end

section
/-! SUPPORT. `Cause` and `Effect` decide what a transaction does: they exclude each other, and fix the error, the payload and
the CORE that is left. So `exec_cases` has a converse, and `Answers` an inversion in the same terms. -/

namespace Sys2Proof.Machine

/-- The checks of a transaction are met in one order, so at one state it has a cause for at most one error (60_exceptions.md
R207). -/
theorem Cause.unique {i : Instr} {s : State} {e e' : Err} (h : Cause i s e) (h' : Cause i s e') : e = e' := by
  cases i
  case aluLast => exact h.elim
  case rfWrite | rfRead | rfReadPair => grind [Cause]
  all_goals exact h.1.trans h'.1.symm

/-- A cause is a check that fails and an effect needs every check passed. -/
theorem Cause.not_effect {i : Instr} {s : State} {e : Err} {p : Payload} {c : CoreState} (h : Cause i s e) :
    ¬ Effect i s p c := by
  cases i
  case aluLast => exact h.elim
  case rfWrite | rfRead | rfReadPair => grind [Cause, Effect]
  all_goals exact fun hf => absurd hf.1 (by simp [h.2])

/-- The payload and the CORE left are functions of the instruction and the state. -/
theorem Effect.unique {i : Instr} {s : State} {p p' : Payload} {c c' : CoreState} (h : Effect i s p c)
    (h' : Effect i s p' c') : p = p' ∧ c = c' := by
  cases i <;> grind [Effect, Delivers]

/-- Converse of `exec_cases` for an error. -/
theorem exec_of_cause {i : Instr} {s : State} {e : Err} (hs : s.core.halted = false) (h : Cause i s e) :
    exec i s = .next (s.afterError e) := by
  rcases exec_cases i s hs with ⟨e', h', he⟩ | ⟨p, c, h', -⟩
  · rwa [h.unique h']
  · exact absurd h' h.not_effect

/-- Converse of `exec_cases` for a success. -/
theorem exec_of_effect {i : Instr} {s : State} {p : Payload} {c : CoreState} (hs : s.core.halted = false)
    (h : Effect i s p c) : exec i s = .next (s.afterSuccess p c) := by
  rcases exec_cases i s hs with ⟨e, h', -⟩ | ⟨p', c', h', he⟩
  · exact absurd h h'.not_effect
  · obtain ⟨rfl, rfl⟩ := h.unique h'
    exact he

end Sys2Proof.Machine

namespace Sys2Proof.Claims
open Sys2Proof.Machine

theorem raises_of_cause {i : Instr} {s : State} {e : Err} (hs : s.core.halted = false) (h : Cause i s e) :
    Raises i s e := exec_of_cause hs h

theorem answers_of_effect {i : Instr} {s : State} {p : Payload} {c : CoreState} (hs : s.core.halted = false)
    (h : Effect i s p c) : Answers i s (.ok p) c := exec_of_effect hs h

/-- Inversion of `Answers`: the core was not halted, and the transaction raised an error for its own cause or answered with
the payload of its own effect. -/
theorem Answers.cases {i : Instr} {s : State} {r : Response} {c : CoreState} (h : Answers i s r c) :
    s.core.halted = false ∧
    ((∃ e, Cause i s e ∧ r = .err e ∧ c = { s.core with halted := decide (s.errorPolicy = .halt) }) ∨
      (∃ p, Effect i s p c ∧ r = .ok p)) := by
  obtain ⟨hs, ⟨e, hc, ht⟩ | ⟨p, c', hf, ht⟩⟩ := exec_next h
  · obtain ⟨hcore, -, -, hresp⟩ := State.mk.inj ht
    exact ⟨hs, .inl ⟨e, hc, (List.cons.inj hresp).1, hcore⟩⟩
  · obtain ⟨rfl, -, -, hresp⟩ := State.mk.inj ht
    exact ⟨hs, .inr ⟨p, hf, (List.cons.inj hresp).1⟩⟩

end Sys2Proof.Claims
end

section
/-! PROOF. Non-interference of the two units (00_scope.md R2, 20_memory.md R60): the causes and effects of a unit's
transactions speak of that unit's state alone. -/

namespace Sys2Proof.Machine

variable {i : Instr} {s : State} {e : Err} {p : Payload} {c : CoreState}

/-! ### ALU transactions and the register file -/

/-- No cause of an ALU transaction mentions the register file. -/
theorem Cause.withRf (hi : i.isAlu = true) (h : Cause i s e) (rf : RegFile) : Cause i (s.withRf rf) e := by
  cases i
  case rfCreate | rfWrite | rfRead | rfReadPair | rfClear | rfDump => cases hi
  all_goals exact h

theorem Delivers.rf_eq {r : ExecResult} (h : Delivers r s p c) : c.rf = s.core.rf := by
  obtain ⟨-, -, rfl⟩ := h
  rfl

theorem Delivers.withRf {r : ExecResult} (h : Delivers r s p c) (rf : RegFile) :
    Delivers r (s.withRf rf) p { c with rf := rf } := by
  obtain ⟨hconf, rfl, rfl⟩ := h
  exact ⟨hconf, rfl, rfl⟩

/-- An ALU transaction writes no register-file state. -/
theorem Effect.rf_eq (hi : i.isAlu = true) (h : Effect i s p c) : c.rf = s.core.rf := by
  cases i
  case rfCreate | rfWrite | rfRead | rfReadPair | rfClear | rfDump => cases hi
  case aluConfigure => obtain ⟨-, -, rfl⟩ := h; rfl
  case aluLast => obtain ⟨-, rfl⟩ := h; rfl
  all_goals exact Delivers.rf_eq h

/-- An ALU transaction reads no register-file state. -/
theorem Effect.withRf (hi : i.isAlu = true) (h : Effect i s p c) (rf : RegFile) :
    Effect i (s.withRf rf) p { c with rf := rf } := by
  cases i
  case rfCreate | rfWrite | rfRead | rfReadPair | rfClear | rfDump => cases hi
  case aluConfigure => obtain ⟨hconf, rfl, rfl⟩ := h; exact ⟨hconf, rfl, rfl⟩
  case aluLast => obtain ⟨rfl, rfl⟩ := h; exact ⟨rfl, rfl⟩
  all_goals exact Delivers.withRf h rf

/-! ### Register-file transactions and the ALU -/

/-- No cause of a register-file transaction mentions the ALU. -/
theorem Cause.withAlu (hi : i.isAlu = false) (h : Cause i s e) (alu : Alu) : Cause i (s.withAlu alu) e := by
  cases i
  case rfCreate | rfWrite | rfRead | rfReadPair | rfClear | rfDump => exact h
  all_goals cases hi

/-- A register-file transaction writes no ALU state. -/
theorem Effect.alu_eq (hi : i.isAlu = false) (h : Effect i s p c) : c.alu = s.core.alu := by
  cases i
  case rfCreate | rfClear | rfDump => obtain ⟨-, -, rfl⟩ := h; rfl
  case rfWrite | rfRead => obtain ⟨-, -, -, rfl⟩ := h; rfl
  case rfReadPair => obtain ⟨-, -, -, -, rfl⟩ := h; rfl
  all_goals cases hi

/-- A register-file transaction reads no ALU state. -/
theorem Effect.withAlu (hi : i.isAlu = false) (h : Effect i s p c) (alu : Alu) :
    Effect i (s.withAlu alu) p { c with alu := alu } := by
  cases i
  case rfCreate | rfClear | rfDump => obtain ⟨hcreated, rfl, rfl⟩ := h; exact ⟨hcreated, rfl, rfl⟩
  case rfWrite | rfRead => obtain ⟨hcreated, hrange, rfl, rfl⟩ := h; exact ⟨hcreated, hrange, rfl, rfl⟩
  case rfReadPair =>
    obtain ⟨hcreated, ha, hb, rfl, rfl⟩ := h
    exact ⟨hcreated, ha, hb, rfl, rfl⟩
  all_goals cases hi

end Sys2Proof.Machine

namespace Sys2Proof.Claims
open Sys2Proof.Machine

theorem Answers.withRf {i : Instr} {s : State} {r : Response} {c : CoreState} (hi : i.isAlu = true)
    (h : Answers i s r c) (rf : RegFile) : c.rf = s.core.rf ∧ Answers i (s.withRf rf) r { c with rf := rf } := by
  obtain ⟨hs, ⟨e, hc, rfl, rfl⟩ | ⟨p, hf, rfl⟩⟩ := h.cases
  · exact ⟨rfl, raises_of_cause hs (hc.withRf hi rf)⟩
  · exact ⟨hf.rf_eq hi, answers_of_effect hs (hf.withRf hi rf)⟩

theorem Answers.withAlu {i : Instr} {s : State} {r : Response} {c : CoreState} (hi : i.isAlu = false)
    (h : Answers i s r c) (alu : Alu) : c.alu = s.core.alu ∧ Answers i (s.withAlu alu) r { c with alu := alu } := by
  obtain ⟨hs, ⟨e, hc, rfl, rfl⟩ | ⟨p, hf, rfl⟩⟩ := h.cases
  · exact ⟨rfl, raises_of_cause hs (hc.withAlu hi alu)⟩
  · exact ⟨hf.alu_eq hi, answers_of_effect hs (hf.withAlu hi alu)⟩

/-- Settles O48: a transaction answers by its cause or its effect, and those of one unit neither read nor write the other. -/
theorem theTwoUnitsShareNoState : Obligations.TheTwoUnitsShareNoState :=
  ⟨fun _ _ _ _ rf hi h => h.withRf hi rf, fun _ _ _ _ alu hi h => h.withAlu hi alu⟩

end Sys2Proof.Claims
end

section
/-! SUPPORT. What a transaction can do to each unit and what it answers, said once from `exec_next`: `exec_aluChange`,
`exec_rfChange`, `exec_response_sound` and `exec_halted`. The state rules of 10_state.md are case analyses of these. -/

namespace Sys2Proof.Machine

variable {i : Instr} {s t : State} {p : Payload} {c : CoreState}

/-! ### Sound results -/

theorem compute_sound (op : Opcode) (a b : Byte) : (compute op a b).sound := by
  cases op <;> rfl

theorem ExecResult.sound.complementary {r : ExecResult} (h : r.sound) : r.flags.complementary := by
  have hpairs := mkFlags_complementary r.flags.c r.result
  rwa [← h] at hpairs

/-- 40_alu_control.md R105. -/
theorem ExecResult.sound.zero_iff {r : ExecResult} (h : r.sound) : r.flags.z = true ↔ r.result.toNat = 0 := by
  have hz : r.flags.z = decide (r.result = 0) := congrArg FlagSet.z h
  rw [hz, decide_eq_true_iff, ← BitVec.toNat_inj]
  rfl

/-- 40_alu_control.md R106. -/
theorem ExecResult.sound.even_iff {r : ExecResult} (h : r.sound) : r.flags.ev = true ↔ r.result.toNat % 2 = 0 := by
  have hev : r.flags.ev = !r.result.getLsbD 0 := congrArg FlagSet.ev h
  rw [hev, low_bit_eq]
  simp

/-! ### What becomes of the ALU -/

/-- The three things a transaction can do to the ALU (10_state.md R34, R35, R40). -/
inductive AluChange (i : Instr) (s t : State) : Prop
  /-- Another transaction than these two, or an error. -/
  | kept (alu : t.core.alu = s.core.alu)
  /-- A successful `configure`. -/
  | configured (lat : Latency) (instr : i = .aluConfigure lat) (before : s.core.alu.configured = false)
      (alu : t.core.alu = { s.core.alu with configured := true, latency := some lat })
      (answer : t.responses = .ok .none :: s.responses)
  /-- A successful `execute`, which stores and answers the result. -/
  | executed (r : ExecResult) (instr : i.isExecute = true) (sound : r.sound) (before : s.core.alu.configured = true)
      (alu : t.core.alu = { s.core.alu with last := some r }) (answer : t.responses = .ok (.result r) :: s.responses)

theorem Delivers.aluChange {r : ExecResult} (hi : i.isExecute = true) (hr : r.sound) (h : Delivers r s p c) :
    AluChange i s (s.afterSuccess p c) := by
  obtain ⟨hconf, rfl, rfl⟩ := h
  exact .executed r hi hr hconf rfl rfl

theorem exec_aluChange (h : exec i s = .next t) : AluChange i s t := by
  obtain ⟨-, ⟨e, -, rfl⟩ | ⟨p, c, hf, rfl⟩⟩ := exec_next h
  · exact .kept rfl
  · cases i
    case rfCreate | rfWrite | rfRead | rfReadPair | rfClear | rfDump => exact .kept (hf.alu_eq rfl)
    case aluConfigure lat => obtain ⟨hconf, rfl, rfl⟩ := hf; exact .configured lat rfl hconf rfl rfl
    case aluLast => obtain ⟨rfl, rfl⟩ := hf; exact .kept rfl
    all_goals exact Delivers.aluChange rfl (compute_sound _ _ _) hf

/-! ### What becomes of the register file -/

/-- The four things a transaction can do to the register file (10_state.md R25, R36, R37). -/
inductive RfChange (i : Instr) (s t : State) : Prop
  /-- Another transaction than these three, or an error. -/
  | kept (rf : t.core.rf = s.core.rf)
  /-- A successful `create`. -/
  | created (n : Byte) (z : Bool) (rl wl : Latency) (instr : i = .rfCreate n z rl wl)
      (before : s.core.rf.created = false)
      (rf : t.core.rf =
        { created := true, size := some n, reserveZero := some z, readLatency := some rl, writeLatency := some wl,
          cell := [] })
      (answer : t.responses = .ok .none :: s.responses)
  /-- A successful `write`, which leaves a reserved cell 0 as it was. -/
  | wrote (addr v : Byte) (instr : i = .rfWrite addr v) (inRange : addr.toNat < s.core.rf.sizeByte.toNat)
      (rf : t.core.rf = s.core.rf.writeCell addr v)
  /-- A successful `clear`. -/
  | cleared (instr : i = .rfClear) (rf : t.core.rf = s.core.rf.clearCells)

theorem exec_rfChange (h : exec i s = .next t) : RfChange i s t := by
  obtain ⟨-, ⟨e, -, rfl⟩ | ⟨p, c, hf, rfl⟩⟩ := exec_next h
  · exact .kept rfl
  · cases i
    case rfCreate n z rl wl => obtain ⟨hnew, rfl, rfl⟩ := hf; exact .created n z rl wl rfl hnew rfl rfl
    case rfWrite addr v => obtain ⟨-, hrange, -, rfl⟩ := hf; exact .wrote addr v rfl hrange rfl
    case rfClear => obtain ⟨-, -, rfl⟩ := hf; exact .cleared rfl rfl
    case rfRead => obtain ⟨-, -, -, rfl⟩ := hf; exact .kept rfl
    case rfReadPair => obtain ⟨-, -, -, -, rfl⟩ := hf; exact .kept rfl
    case rfDump => obtain ⟨-, -, rfl⟩ := hf; exact .kept rfl
    all_goals exact .kept (hf.rf_eq rfl)

/-! ### What is answered, and `halted` -/

/-- A success carries only results the ALU just computed or had stored. -/
theorem Effect.payload_sound (hs : s.core.alu.Inv) (h : Effect i s p c) : (Response.ok p).sound := by
  cases i
  case aluLast =>
    obtain ⟨rfl, -⟩ := h
    cases hl : s.core.alu.last with
    | none => trivial
    | some r => exact hs.last r hl
  case aluConfigure | rfCreate | rfClear | rfDump => obtain ⟨-, rfl, -⟩ := h; trivial
  case rfWrite | rfRead => obtain ⟨-, -, rfl, -⟩ := h; trivial
  case rfReadPair => obtain ⟨-, -, -, rfl, -⟩ := h; trivial
  all_goals
    obtain ⟨-, rfl, -⟩ := h
    exact compute_sound _ _ _

theorem exec_response_sound (hs : s.core.alu.Inv) (h : exec i s = .next t) :
    ∃ r : Response, t.responses = r :: s.responses ∧ r.sound := by
  obtain ⟨-, ⟨e, -, rfl⟩ | ⟨p, c, hf, rfl⟩⟩ := exec_next h
  · exact ⟨.err e, rfl, trivial⟩
  · exact ⟨.ok p, rfl, hf.payload_sound hs⟩

theorem Effect.halted_eq (h : Effect i s p c) : c.halted = s.core.halted := by
  cases i
  case aluLast => obtain ⟨-, rfl⟩ := h; rfl
  case rfWrite | rfRead => obtain ⟨-, -, -, rfl⟩ := h; rfl
  case rfReadPair => obtain ⟨-, -, -, -, rfl⟩ := h; rfl
  all_goals
    obtain ⟨-, -, rfl⟩ := h
    rfl

/-- Only an error under halt sets `halted` (60_exceptions.md R206). -/
theorem exec_halted (h : exec i s = .next t) (ht : t.core.halted = true) : t.errorPolicy = .halt := by
  obtain ⟨hs, ⟨e, -, rfl⟩ | ⟨p, c, hf, rfl⟩⟩ := exec_next h
  · exact of_decide_eq_true ht
  · have hc : c.halted = false := hf.halted_eq.trans hs
    exact absurd (hc.symm.trans ht) Bool.false_ne_true

end Sys2Proof.Machine
end

section
/-! PROOF. The machine's invariant (10_state.md R32, R43, R44): each change of a unit keeps the unit's part, so a
transaction keeps the whole, and so does every step. -/

namespace Sys2Proof.Machine

variable {i : Instr} {s t : State}

/-! ### The ALU's part -/

theorem Alu.inv_reset : Alu.reset.Inv where
  latency := rfl
  unconfigured _ := rfl
  last _ h := nomatch h

theorem Alu.Inv.configure {a : Alu} (h : a.Inv) (lat : Latency) :
    Alu.Inv { a with configured := true, latency := some lat } where
  latency := rfl
  unconfigured hc := nomatch hc
  last := h.last

theorem Alu.Inv.setLast {a : Alu} (h : a.Inv) (hc : a.configured = true) {r : ExecResult} (hr : r.sound) :
    Alu.Inv { a with last := some r } where
  latency := h.latency
  unconfigured hc' := absurd (hc.symm.trans hc') Bool.noConfusion
  last _ hl := Option.some.inj hl ▸ hr

theorem exec_keeps_alu_inv (hs : s.core.alu.Inv) (h : exec i s = .next t) : t.core.alu.Inv := by
  cases exec_aluChange h with
  | kept alu => exact alu ▸ hs
  | configured lat _ _ alu _ => exact alu ▸ hs.configure lat
  | executed r _ sound before alu _ => exact alu ▸ hs.setLast before sound

/-! ### The register file's part -/

/-- A write reaches the stored cell it names, but for a reserved cell 0. -/
theorem RegFile.writeCell_cell_read (rf : RegFile) (addr v : Byte) (j : Nat) :
    (rf.writeCell addr v).cell.read j =
      if rf.reserved addr = false ∧ j = addr.toNat then v else rf.cell.read j := by
  unfold RegFile.writeCell
  cases rf.reserved addr <;> simp

/-- Before `create` nothing is held, and no cell. -/
theorem RegFile.inv_reset : RegFile.reset.Inv where
  size := rfl
  reserveZero := rfl
  readLatency := rfl
  writeLatency := rfl
  wf := CellLaws.wf_nil
  bounded _ he := nomatch he
  zero _ := rfl

theorem RegFile.inv_created (n : Byte) (z : Bool) (rl wl : Latency) :
    RegFile.Inv
      { created := true, size := some n, reserveZero := some z, readLatency := some rl, writeLatency := some wl,
        cell := [] } where
  size := rfl
  reserveZero := rfl
  readLatency := rfl
  writeLatency := rfl
  wf := CellLaws.wf_nil
  bounded _ he := nomatch he
  zero _ := rfl

/-- The zero-register option makes index 0 reserved (10_state.md R22). -/
theorem RegFile.reserved_zero {rf : RegFile} (h : rf.reserveZero = some true) : rf.reserved 0 = true := by
  simp [RegFile.reserved, h]

theorem RegFile.Inv.writeCell {rf : RegFile} (h : rf.Inv) {addr : Byte} (v : Byte)
    (hr : addr.toNat < rf.sizeByte.toNat) : (rf.writeCell addr v).Inv where
  size := by simp [h.size]
  reserveZero := by simp [h.reserveZero]
  readLatency := by simp [h.readLatency]
  writeLatency := by simp [h.writeLatency]
  wf := by
    unfold RegFile.writeCell
    split
    · exact h.wf
    · exact CellLaws.wf_write _ _ h.wf
  bounded := by
    unfold RegFile.writeCell
    split
    · exact h.bounded
    · intro e he
      rcases CellLaws.mem_write he with rfl | hold
      · exact hr
      · exact h.bounded e hold
  zero hz := by
    rw [RegFile.writeCell_reserveZero] at hz
    rw [RegFile.writeCell_cell_read, if_neg, h.zero hz]
    rintro ⟨hres, ha⟩
    obtain rfl : addr = 0 := BitVec.eq_of_toNat_eq ha.symm
    exact absurd (hres.symm.trans (RegFile.reserved_zero hz)) Bool.false_ne_true

theorem RegFile.Inv.clearCells {rf : RegFile} (h : rf.Inv) : rf.clearCells.Inv where
  size := h.size
  reserveZero := h.reserveZero
  readLatency := h.readLatency
  writeLatency := h.writeLatency
  wf := CellLaws.wf_clearBelow _ _ h.wf
  bounded e he := h.bounded e (List.mem_filter.1 he).1
  zero hz := by
    unfold RegFile.clearCells
    simp [h.zero hz]

theorem exec_keeps_rf_inv (hs : s.core.rf.Inv) (h : exec i s = .next t) : t.core.rf.Inv := by
  cases exec_rfChange h with
  | kept rf => exact rf ▸ hs
  | created n z rl wl _ _ rf _ => exact rf ▸ RegFile.inv_created n z rl wl
  | wrote addr v _ inRange rf => exact rf ▸ hs.writeCell v inRange
  | cleared _ rf => exact rf ▸ hs.clearCells

/-! ### The machine's -/

theorem State.inv_start (policy : ErrorPolicy) (inputs : List Input) : (State.start policy inputs).Inv where
  alu := Alu.inv_reset
  rf := RegFile.inv_reset
  halted h := nomatch h
  responses _ hr := nomatch hr

/-- The invariant says nothing of the waiting inputs. -/
theorem State.Inv.withInputs (h : s.Inv) (l : List Input) : (s.withInputs l).Inv where
  alu := h.alu
  rf := h.rf
  halted := h.halted
  responses := h.responses

/-- Construction puts CORE at its reset value and keeps the responses given. -/
theorem State.Inv.construct (h : s.Inv) : s.construct.Inv where
  alu := Alu.inv_reset
  rf := RegFile.inv_reset
  halted hh := nomatch hh
  responses := h.responses

theorem exec_keeps_inv (hs : s.Inv) (h : exec i s = .next t) : t.Inv where
  alu := exec_keeps_alu_inv hs.alu h
  rf := exec_keeps_rf_inv hs.rf h
  halted := exec_halted h
  responses := by
    obtain ⟨r, hr, hsound⟩ := exec_response_sound hs.alu h
    rw [hr]
    exact List.forall_mem_cons.2 ⟨hsound, hs.responses⟩

theorem step_keeps_inv (hs : s.Inv) (h : step s = .next t) : t.Inv := by
  obtain ⟨rest, -, rfl⟩ | ⟨_, rest, i, -, -, hx⟩ := step_next h
  · exact (hs.withInputs rest).construct
  · exact exec_keeps_inv (hs.withInputs rest) hx

theorem Reachable.inv (h : Reachable s) : s.Inv := by
  induction h with
  | start policy inputs => exact State.inv_start policy inputs
  | presented _ more _ ih => exact ih.withInputs more
  | stepped _ _ _ hstep ih => exact step_keeps_inv ih hstep

end Sys2Proof.Machine

namespace Sys2Proof.Claims
open Sys2Proof.Machine

/-- Settles O52: a step is a construction or a transaction, and each keeps every part of the invariant. -/
theorem everyStepKeepsTheInvariant : Obligations.EveryStepKeepsTheInvariant :=
  fun _ _ hs h => step_keeps_inv hs h

/-- Settles O51: `State.reset` is the starting state under the default policy with no inputs. -/
theorem resetMeetsTheInvariant : Obligations.ResetMeetsTheInvariant :=
  ⟨State.inv_start Config.errorPolicy [], State.inv_start⟩

/-- Settles O53, from the invariant of the reachable states. -/
theorem reachableStatesObeyTheStateRules : Obligations.ReachableStatesObeyTheStateRules := by
  intro s h
  have hinv := h.inv
  refine ⟨fun _ hz _ => hinv.rf.zero hz, fun hc => ⟨hinv.alu.unconfigured hc, ?_⟩,
    fun r hr => (hinv.alu.last r hr).complementary, hinv.halted⟩
  have hnone : s.core.alu.latency.isSome = false := hinv.alu.latency.trans hc
  simpa using hnone

/-- Settles O24: what is answered and what is kept is sound, and a sound result's flags are derived from it. -/
theorem everyAnsweredFlagSetIsComplementary : Obligations.EveryAnsweredFlagSetIsComplementary := by
  intro i s t p r hs h hp hr
  obtain ⟨_, hresp, hsound⟩ := exec_response_sound hs h
  obtain rfl := (List.cons.inj (hp.symm.trans hresp)).1
  have hr : r.sound := by
    rcases hr with rfl | rfl | hlast
    · exact hsound
    · exact hsound
    · exact (exec_keeps_alu_inv hs h).last r hlast
  obtain ⟨hc, hz, hev⟩ := hr.complementary
  exact ⟨hc, hz, hev, hr.zero_iff, hr.even_iff⟩

end Sys2Proof.Claims
end

section
/-! PROOF. What transactions write: the last result, the cells and the configuration (10_state.md R25, R34 to R37, R40), and
what reset leaves. -/

namespace Sys2Proof.Machine

variable {i : Instr} {s t : State} {p : Payload} {c : CoreState}

/-- The reading transactions (20_memory.md R54). -/
theorem Effect.core_eq_of_reading (hi : (∃ a, i = .rfRead a) ∨ (∃ a b, i = .rfReadPair a b) ∨ i = .rfDump ∨ i = .aluLast)
    (h : Effect i s p c) : c = s.core := by
  rcases hi with ⟨a, rfl⟩ | ⟨a, b, rfl⟩ | rfl | rfl
  · obtain ⟨-, -, -, hcore⟩ := h; exact hcore
  · obtain ⟨-, -, -, -, hcore⟩ := h; exact hcore
  · obtain ⟨-, -, hcore⟩ := h; exact hcore
  · exact h.2

/-- Under ERROR_POLICY = return an error leaves CORE as it was (60_exceptions.md R203, R205). -/
theorem State.afterError_core_of_ret (hs : s.core.halted = false) (hp : s.errorPolicy = .ret) (e : Err) :
    (s.afterError e).core = s.core := by
  have hh : decide (s.errorPolicy = .halt) = s.core.halted := by rw [hp, hs]; rfl
  exact congrArg (fun b => { s.core with halted := b }) hh

/-- A transaction keeps the ALU's lifecycle bit and latency, or it is the `configure` that writes them (10_state.md R35). -/
theorem exec_alu_config (h : exec i s = .next t) :
    (t.core.alu.configured = s.core.alu.configured ∧ t.core.alu.latency = s.core.alu.latency) ∨
    (s.core.alu.configured = false ∧ t.core.alu.configured = true ∧ t.responses = .ok .none :: s.responses ∧
      ∃ lat, i = .aluConfigure lat ∧ t.core.alu.latency = some lat) := by
  cases exec_aluChange h with
  | kept alu => exact .inl (by simp [alu])
  | configured lat instr before alu answer => exact .inr ⟨before, by simp [alu], answer, lat, instr, by simp [alu]⟩
  | executed _ _ _ _ alu => exact .inl (by simp [alu])

/-- The two files hold the same configuration; the lifecycle bits and the cells may differ. -/
def RegFile.SameConfig (rf rf' : RegFile) : Prop :=
  rf'.size = rf.size ∧ rf'.reserveZero = rf.reserveZero ∧ rf'.readLatency = rf.readLatency ∧
    rf'.writeLatency = rf.writeLatency

/-- A transaction keeps the file's lifecycle bit and configuration, or it is the `create` that writes them (10_state.md R36,
R37). -/
theorem exec_rf_config (h : exec i s = .next t) :
    (t.core.rf.created = s.core.rf.created ∧ s.core.rf.SameConfig t.core.rf) ∨
    (s.core.rf.created = false ∧ t.core.rf.created = true ∧ t.responses = .ok .none :: s.responses ∧
      ∃ n z rl wl, i = .rfCreate n z rl wl ∧ t.core.rf.size = some n ∧ t.core.rf.reserveZero = some z ∧
        t.core.rf.readLatency = some rl ∧ t.core.rf.writeLatency = some wl) := by
  cases exec_rfChange h with
  | kept rf => exact .inl (by simp [rf, RegFile.SameConfig])
  | created n z rl wl instr before rf answer =>
    exact .inr ⟨before, by simp [rf], answer, n, z, rl, wl, instr, by simp [rf]⟩
  | wrote addr v _ _ rf => exact .inl (by simp [rf, RegFile.SameConfig])
  | cleared _ rf => exact .inl (by simp [rf, RegFile.SameConfig])

theorem exec_keeps_configured (h : exec i s = .next t) (hc : s.core.alu.configured = true) :
    t.core.alu.configured = true ∧ t.core.alu.latency = s.core.alu.latency := by
  rcases exec_alu_config h with ⟨hbit, hlat⟩ | ⟨hnew, -⟩
  · exact ⟨hbit.trans hc, hlat⟩
  · exact absurd (hnew.symm.trans hc) Bool.false_ne_true

theorem exec_keeps_created (h : exec i s = .next t) (hc : s.core.rf.created = true) :
    t.core.rf.created = true ∧ s.core.rf.SameConfig t.core.rf := by
  rcases exec_rf_config h with ⟨hbit, hconf⟩ | ⟨hnew, -⟩
  · exact ⟨hbit.trans hc, hconf⟩
  · exact absurd (hnew.symm.trans hc) Bool.false_ne_true

/-- The configuration outputs (10_state.md R39) are the ALU's latency and the file's configuration. -/
theorem State.configOutputs_eq (hlat : t.core.alu.latency = s.core.alu.latency)
    (hconf : s.core.rf.SameConfig t.core.rf) : s.configOutputs = t.configOutputs := by
  obtain ⟨hn, hz, hrl, hwl⟩ := hconf
  simp [State.configOutputs, hlat, hn, hz, hrl, hwl]

/-- A second `create` fails (10_state.md R36). -/
theorem exec_rfCreate_of_created {n : Byte} {z : Bool} {rl wl : Latency} (h : exec (.rfCreate n z rl wl) s = .next t)
    (hc : s.core.rf.created = true) : t.responses = .err .alreadyCreated :: s.responses := by
  have hcause : Cause (.rfCreate n z rl wl) s .alreadyCreated := ⟨rfl, hc⟩
  obtain ⟨hs, -⟩ := exec_next h
  obtain rfl := Host.Outcome.next.inj ((exec_of_cause hs hcause).symm.trans h)
  rfl

/-- A step that takes no reset is a transaction, taken from the state without its request. -/
theorem step_next_of_no_reset (h : step s = .next t) (hr : ∀ rest, s.inputs ≠ .reset :: rest) :
    ∃ rest i, exec i (s.withInputs rest) = .next t := by
  obtain ⟨rest, hin, -⟩ | ⟨_, rest, i, -, -, hx⟩ := step_next h
  · exact absurd hin (hr rest)
  · exact ⟨rest, i, hx⟩

end Sys2Proof.Machine

namespace Sys2Proof.Claims
open Sys2Proof.Machine

/-- Settles O26: of the three changes of the ALU only the executed one gives `alu.last` another value. -/
theorem onlyASuccessfulExecuteWritesTheLastResult : Obligations.OnlyASuccessfulExecuteWritesTheLastResult := by
  intro i s t h hne
  cases exec_aluChange h with
  | kept alu => exact absurd (congrArg Alu.last alu) hne
  | configured _ _ _ alu => exact absurd (congrArg Alu.last alu) hne
  | executed r instr _ _ alu answer => exact ⟨instr, r, congrArg Alu.last alu, answer⟩

/-- Settles O40: by the four changes of the register file, and by the effects of the reading transactions. -/
theorem onlyWriteClearAndCreateChangeCells : Obligations.OnlyWriteClearAndCreateChangeCells := by
  refine ⟨fun i s t j h hne => ?_, fun i s t h hp hi => ?_⟩
  · cases exec_rfChange h with
    | kept rf => exact absurd (by rw [rf]) hne
    | created n z rl wl instr => exact .inr (.inr ⟨n, z, rl, wl, instr⟩)
    | cleared instr => exact .inr (.inl instr)
    | wrote addr v instr _ rf =>
      rw [rf, RegFile.writeCell_cell_read] at hne
      obtain ⟨hres, hj⟩ := (ite_ne_right_iff.1 hne).1
      exact .inl ⟨addr, v, instr, hj, hres⟩
  · obtain ⟨hs, ⟨e, -, rfl⟩ | ⟨p, c, hf, rfl⟩⟩ := exec_next h
    · exact State.afterError_core_of_ret hs hp e
    · exact hf.core_eq_of_reading hi

/-- Settles O47: each unit's configuration is kept or written by its own setup transaction, and a step is a transaction
unless it takes a reset. -/
theorem configurationIsWrittenOnce : Obligations.ConfigurationIsWrittenOnce := by
  refine ⟨fun i s t h => ⟨exec_keeps_configured h, exec_keeps_created h, fun hbefore hafter => ?_,
    fun hbefore hafter => ?_, fun hne => ?_, ?_⟩, fun s t h hr => ?_⟩
  · rcases exec_alu_config h with ⟨hbit, -⟩ | ⟨-, -, hset⟩
    · exact absurd (hbefore.symm.trans (hbit.symm.trans hafter)) Bool.false_ne_true
    · exact hset
  · rcases exec_rf_config h with ⟨hbit, -⟩ | ⟨-, -, hset⟩
    · exact absurd (hbefore.symm.trans (hbit.symm.trans hafter)) Bool.false_ne_true
    · exact hset
  · rcases exec_alu_config h with ⟨-, hlat⟩ | ⟨hbefore, hafter, -⟩
    · rcases exec_rf_config h with ⟨-, hconf⟩ | ⟨hbefore, hafter, -⟩
      · exact absurd (State.configOutputs_eq hlat hconf) hne
      · exact .inr ⟨hbefore, hafter⟩
    · exact .inl ⟨hbefore, hafter⟩
  · rintro ⟨n, z, rl, wl, rfl⟩ hc
    exact exec_rfCreate_of_created h hc
  · obtain ⟨rest, i, hx⟩ := step_next_of_no_reset h hr
    exact ⟨fun hc => (exec_keeps_configured hx hc).1, fun hc => (exec_keeps_created hx hc).1⟩

/-- Settles O1: every field of `State.reset` computes. -/
theorem resetLeavesTheBlockEmptyAndUnusable : Obligations.ResetLeavesTheBlockEmptyAndUnusable :=
  ⟨rfl, rfl, rfl, rfl, rfl, rfl, rfl, rfl, rfl, rfl, rfl⟩

end Sys2Proof.Claims
end

section
/-! PROOF. The flag set's layout (10_state.md R31, D3). -/

namespace Sys2Proof.Machine

/-- Each flag stands at its position, checked over the 64 flag sets. -/
theorem FlagSet.bits_getLsbD (f : FlagSet) (g : Flag) : f.bits.getLsbD (flagPosition g) = f.get g := by
  obtain ⟨c, nc, z, nz, ev, od⟩ := f
  cases g <;> revert c nc z nz ev od <;> decide

theorem FlagSet.ofBits_bits (f : FlagSet) : FlagSet.ofBits f.bits = f := by
  simp only [FlagSet.ofBits, FlagSet.bits_getLsbD]
  rfl

theorem FlagSet.container_lt (f : FlagSet) : f.container.toNat < 64 := by
  have hc : f.container.toNat = f.bits.toNat := BitVec.toNat_setWidth_of_le (by decide)
  rw [hc]
  exact f.bits.isLt

end Sys2Proof.Machine

namespace Sys2Proof.Claims
open Sys2Proof.Machine

/-- Settles O11: `bits_getLsbD` at each flag in turn. -/
theorem flagSetLayoutIsSixBits : Obligations.FlagSetLayoutIsSixBits := fun f =>
  ⟨f.bits_getLsbD .c, f.bits_getLsbD .nc, f.bits_getLsbD .z, f.bits_getLsbD .nz, f.bits_getLsbD .ev, f.bits_getLsbD .od,
    f.container_lt, f.ofBits_bits⟩

end Sys2Proof.Claims
end

section
/-! PROOF. What the port does with its first input (20_memory.md R53, R59). -/

namespace Sys2Proof.Machine

variable {s : State} {rest : List Input}

theorem step_request {r : Request} {i : Instr} (hin : s.inputs = .request r :: rest) (hd : decode r = .ok i) :
    step s = exec i (s.withInputs rest) := by
  unfold step
  simp only [hin, hd]

theorem step_overlapping {r r' : Request} {more : List Request} (hin : s.inputs = .overlapping r r' more :: rest) :
    step s = .refused .overlapping := by
  unfold step
  simp only [hin]

end Sys2Proof.Machine

namespace Sys2Proof.Claims
open Sys2Proof.Machine

/-- Settles O3: the step's branch for a request that decodes. -/
theorem stepRunsTheDecodedRequest : Obligations.StepRunsTheDecodedRequest :=
  fun _ _ _ _ hin hd _ => step_request hin hd

/-- Settles O7: the step's branch for overlapping requests, which does not look at the core. -/
theorem overlappingRequestsAreRefused : Obligations.OverlappingRequestsAreRefused :=
  fun _ _ _ _ _ hin => step_overlapping hin

end Sys2Proof.Claims
end

section
/-! PROOF. A cell along a history of transactions (20_memory.md R58): each transaction leaves in it what `leaves` says, and the
file stays created with its configuration. -/

namespace Sys2Proof.Machine
open Sys2Proof.Claims

variable {i : Instr} {s t : State} {addr : Byte}

/-- The reserved index in the words of the statements (10_state.md R22). -/
theorem RegFile.reserved_eq_false_iff (rf : RegFile) (addr : Byte) :
    rf.reserved addr = false ↔ ¬(rf.reserveZero.getD false = true ∧ addr = 0) := by
  simp [RegFile.reserved]

theorem cellValue_eq_readCell {z : Bool} (hz : s.core.rf.reserveZero = some z) :
    cellValue s z addr = s.core.rf.readCell addr := by
  simp [cellValue, RegFile.readCell, RegFile.reserved, hz]

/-- In a created file, only `write` and `clear` can change the register file. -/
theorem exec_keeps_rf (h : exec i s = .next t) (hc : s.core.rf.created = true) (hwrite : ∀ a v, i ≠ .rfWrite a v)
    (hclear : i ≠ .rfClear) : t.core.rf = s.core.rf := by
  cases exec_rfChange h with
  | kept rf => exact rf
  | created _ _ _ _ _ before => exact absurd (before.symm.trans hc) Bool.false_ne_true
  | wrote a v instr => exact absurd instr (hwrite a v)
  | cleared instr => exact absurd instr hclear

/-- A `write` in a created file either fails for its own address or writes the cell. -/
theorem exec_rfWrite_rf {a v : Byte} (hc : s.core.rf.created = true) (h : exec (.rfWrite a v) s = .next t) :
    (s.core.rf.sizeByte.toNat ≤ a.toNat ∧ t.core.rf = s.core.rf) ∨ t.core.rf = s.core.rf.writeCell a v := by
  obtain ⟨-, ⟨e, hcause, rfl⟩ | ⟨p, c, ⟨-, -, -, rfl⟩, rfl⟩⟩ := exec_next h
  · obtain ⟨-, hnew⟩ | ⟨-, -, hout⟩ := hcause
    · exact absurd (hnew.symm.trans hc) Bool.false_ne_true
    · exact .inl ⟨hout, rfl⟩
  · exact .inr rfl

/-- A `clear` in a created file succeeds. -/
theorem exec_rfClear_rf (hc : s.core.rf.created = true) (h : exec .rfClear s = .next t) :
    t.core.rf = s.core.rf.clearCells := by
  obtain ⟨-, ⟨e, ⟨-, hnew⟩, -⟩ | ⟨p, c, ⟨-, -, rfl⟩, rfl⟩⟩ := exec_next h
  · exact absurd (hnew.symm.trans hc) Bool.false_ne_true
  · rfl

/-- A transaction on a created file leaves in a valid cell what `leaves` says. -/
theorem exec_readCell (hc : s.core.rf.created = true) (hr : addr.toNat < s.core.rf.sizeByte.toNat)
    (h : exec i s = .next t) :
    t.core.rf.readCell addr = leaves (s.core.rf.reserveZero.getD false) addr i (s.core.rf.readCell addr) := by
  cases i
  case rfWrite a v =>
    obtain ⟨hout, hrf⟩ | hrf := exec_rfWrite_rf hc h
    · have hne : a ≠ addr := by rintro rfl; omega
      simp [hrf, leaves, hne]
    · simp only [hrf, leaves, readCell_writeCell, RegFile.reserved_eq_false_iff]
  case rfClear => rw [exec_rfClear_rf hc h, readCell_clearCells _ _ hr]; rfl
  all_goals exact congrArg (RegFile.readCell · addr) (exec_keeps_rf h hc nofun nofun)

theorem runAll_cons {rest : List Instr} :
    runAll (i :: rest) s = some t ↔ ∃ u, exec i s = .next u ∧ runAll rest u = some t := by
  rw [runAll]
  cases exec i s <;> simp

/-- A history on a created file keeps its configuration and leaves in a valid cell what `latest` says. -/
theorem runAll_readCell {history : List Instr} (hc : s.core.rf.created = true)
    (hr : addr.toNat < s.core.rf.sizeByte.toNat) (h : runAll history s = some t) :
    t.core.rf.created = true ∧ t.core.rf.size = s.core.rf.size ∧
      t.core.rf.readCell addr = latest (s.core.rf.reserveZero.getD false) addr history (s.core.rf.readCell addr) := by
  induction history generalizing s with
  | nil => obtain rfl := Option.some.inj h; exact ⟨hc, rfl, rfl⟩
  | cons i rest ih =>
    obtain ⟨u, hu, hrest⟩ := runAll_cons.1 h
    obtain ⟨hcu, hsize, hzero, -⟩ := exec_keeps_created hu hc
    have hru : addr.toNat < u.core.rf.sizeByte.toNat := by rwa [RegFile.sizeByte, hsize]
    obtain ⟨hct, hsizet, hread⟩ := ih hcu hru hrest
    refine ⟨hct, hsizet.trans hsize, ?_⟩
    rw [hread, exec_readCell hc hr hu, hzero]
    rfl

end Sys2Proof.Machine

namespace Sys2Proof.Claims
open Sys2Proof.Machine

/-- Settles O39: the history keeps the file created and in range, so the `read` succeeds, and by induction over the history
the cell reads what `latest` says. -/
theorem readSeesTheLatestWriteOrClear : Obligations.ReadSeesTheLatestWriteOrClear := by
  intro history s t n z addr ⟨_, hc, hn, hz⟩ hlt hrun ht
  have hr : addr.toNat < s.core.rf.sizeByte.toNat := by rwa [RegFile.sizeByte, hn]
  obtain ⟨hct, hsize, hread⟩ := runAll_readCell hc hr hrun
  have hrt : addr.toNat < t.core.rf.sizeByte.toNat := by rwa [RegFile.sizeByte, hsize]
  rw [hz, Option.getD_some] at hread
  rw [cellValue_eq_readCell hz, ← hread]
  exact answers_of_effect ht ⟨hct, hrt, rfl, rfl⟩

end Sys2Proof.Claims
end

section
/-! PROOF. Transactions of the two units commute (20_memory.md R60): what one unit's transaction leaves is, to the other's,
the same machine with another state of the first unit and one more response. -/

namespace Sys2Proof.Claims
open Sys2Proof.Machine

variable {i j : Instr} {s : State} {r ri rj : Response} {c ci cj : CoreState}

/-- No transaction reads the responses given. -/
theorem Answers.record (h : Answers i s r c) (r' : Response) : Answers i (s.record r') r c := by
  obtain ⟨hs, ⟨e, hc, rfl, rfl⟩ | ⟨p, hf, rfl⟩⟩ := h.cases
  · exact raises_of_cause (s := s.record r') hs hc
  · exact answers_of_effect (s := s.record r') hs hf

/-- Where errors do not halt, every transaction answers and leaves the core running. -/
theorem exists_answers_of_ret (i : Instr) (hp : s.errorPolicy = .ret) (hs : s.core.halted = false) :
    ∃ r c, Answers i s r c ∧ c.halted = false := by
  rcases exec_cases i s hs with ⟨e, -, he⟩ | ⟨p, c, hf, he⟩
  · exact ⟨_, _, he, by simp [hp]⟩
  · exact ⟨_, c, he, hf.halted_eq.trans hs⟩

theorem Answers.runAll_pair (hi : Answers i s ri ci) (hj : Answers j ((s.withCore ci).record ri) rj c) :
    runAll [i, j] s = some ((((s.withCore ci).record ri).withCore c).record rj) :=
  runAll_cons.2 ⟨_, hi, runAll_cons.2 ⟨_, hj, rfl⟩⟩

/-- After an ALU transaction a register-file transaction answers as before it. -/
theorem Answers.after_alu (hi : i.isAlu = true) (hj : j.isAlu = false) (h : Answers i s ri ci)
    (hrun : ci.halted = s.core.halted) (h' : Answers j s rj cj) :
    Answers j ((s.withCore ci).record ri) rj { cj with alu := ci.alu } := by
  have hci : ci = { s.core with alu := ci.alu } :=
    congrArg₂ (CoreState.mk ci.alu) (h.withRf hi s.core.rf).1 hrun
  have hafter := (h'.withAlu hj ci.alu).2.record ri
  rwa [State.withAlu, ← hci] at hafter

/-- After a register-file transaction an ALU transaction answers as before it. -/
theorem Answers.after_rf (hi : i.isAlu = true) (hj : j.isAlu = false) (h : Answers i s ri ci)
    (h' : Answers j s rj cj) (hrun : cj.halted = s.core.halted) :
    Answers i ((s.withCore cj).record rj) ri { ci with rf := cj.rf } := by
  have hcj : cj = { s.core with rf := cj.rf } :=
    congrArg₂ (CoreState.mk · cj.rf ·) (h'.withAlu hj s.core.alu).1 hrun
  have hafter := (h.withRf hi cj.rf).2.record rj
  rwa [State.withRf, ← hcj] at hafter

/-- Settles O49: each transaction answers after the other as it does alone, and the two COREs agree in the ALU the one left,
the register file the other left, and in running. -/
theorem aluAndRegisterFileTransactionsCommute : Obligations.AluAndRegisterFileTransactionsCommute := by
  intro i j s hi hj hp hs
  obtain ⟨ri, ci, hai, hci⟩ := exists_answers_of_ret i hp hs
  obtain ⟨rj, cj, haj, hcj⟩ := exists_answers_of_ret j hp hs
  refine ⟨ri, rj, _, _, hai.runAll_pair (hai.after_alu hi hj (hci.trans hs.symm) haj),
    haj.runAll_pair (hai.after_rf hi hj haj (hcj.trans hs.symm)), ?_, rfl, rfl⟩
  simp [hci, hcj]

end Sys2Proof.Claims
end

section
/-! PROOF. The encoding (30_encoding.md R70 to R77): the opcode numbering, what `decode` can answer, said once for every request
(`decodeTxn_cases`, `encode_of_decode`), and the table's words. -/

namespace Sys2Proof

variable {i : Instr} {r : Request}

/-! ### The opcode numbers (R70, R71) -/

/-- Every 3-bit value is the number of the opcode it names. -/
@[simp] theorem Opcode.code_ofCode : ∀ op : BitVec 3, (Opcode.ofCode op).code = op := by decide

@[simp] theorem Opcode.ofCode_code (o : Opcode) : Opcode.ofCode o.code = o := by
  rcases o with m | m <;> cases m <;> rfl

theorem encode_decodeOpc (op : BitVec 3) (a b : Byte) : encode (decodeOpc op a b) = .opc op a b := by
  have hcode : encode (decodeOpc op a b) = .opc (Opcode.ofCode op).code a b := by
    unfold decodeOpc
    rcases Opcode.ofCode op with m | m <;> cases m <;> rfl
  rw [hcode, Opcode.code_ofCode]

/-! ### Requests (R76, R77) -/

/-- The selectors that name no transaction (R77, D14). -/
def unusedSelectors : List Nat := [3, 4, 5, 6, 7, 14, 15]

/-- What a TXN4 request decodes to: nothing at an unused selector, else an instruction whose request is this one with only the
listed fields driven. -/
theorem decodeTxn_cases (sel : BitVec 4) (f : Fields) :
    (sel.toNat ∈ unusedSelectors ∧ decodeTxn sel f = .error (.noTransaction sel)) ∨
    (sel.toNat ∉ unusedSelectors ∧ ∃ i, decodeTxn sel f = .ok i ∧ encode i = .txn sel (f.listedFor sel)) := by
  unfold decodeTxn
  split_ifs
  case neg => exact .inl ⟨by revert sel; decide, rfl⟩
  all_goals subst sel; exact .inr ⟨by decide, _, rfl, rfl⟩

/-- A request as an encoder drives it: every field that R76 does not list for its selector at zero (log 22). -/
def Request.listed : Request → Request
  | .txn sel f => .txn sel (f.listedFor sel)
  | .opc op a b => .opc op a b

theorem Request.wellFormed_iff_listed : r.wellFormed = true ↔ r.listed = r := by
  cases r with
  | txn sel f => rw [Request.wellFormed, beq_iff_eq, eq_comm, Request.listed, Request.txn.injEq, and_iff_right rfl]
  | opc op a b => simp [Request.wellFormed, Request.listed]

/-- Encoding undoes decoding, up to the fields that decoding does not look at. -/
theorem encode_of_decode (h : decode r = .ok i) : encode i = r.listed := by
  cases r with
  | txn sel f =>
    obtain ⟨-, herr⟩ | ⟨-, i', hok, henc⟩ := decodeTxn_cases sel f
    · cases herr.symm.trans h
    · cases hok.symm.trans h
      exact henc
  | opc op a b =>
    cases h
    exact encode_decodeOpc op a b

@[simp] theorem decode_encode (i : Instr) : decode (encode i) = .ok i := by
  cases i <;> rfl

/-- An instruction's request drives only listed fields, since encoding what it decodes to gives it back. -/
theorem encode_wellFormed (i : Instr) : (encode i).wellFormed = true :=
  Request.wellFormed_iff_listed.2 (encode_of_decode (decode_encode i)).symm

/-! ### The table's words -/

theorem decodeTableWord_eq_some_iff {nbits w : Nat} :
    decodeTableWord nbits w = some i ↔ ∃ r, tableRequest nbits w = some r ∧ decode r = .ok i := by
  unfold decodeTableWord
  cases tableRequest nbits w with
  | none => simp
  | some r => cases hd : decode r <;> simp [hd]

/-- A word that stands for an instruction's request decodes to the instruction. -/
theorem decodeTableWord_of_encode {nbits w : Nat} (h : tableRequest nbits w = some (encode i)) :
    decodeTableWord nbits w = some i :=
  decodeTableWord_eq_some_iff.2 ⟨_, h, decode_encode i⟩

end Sys2Proof

namespace Sys2Proof.Machine

variable {s : State}

theorem step_noTransaction {r : Request} {rest : List Input} {sel : BitVec 4} (hin : s.inputs = .request r :: rest)
    (hd : decode r = .error (.noTransaction sel)) : step s = .refused (.noTransaction sel) := by
  unfold step
  simp only [hin, hd]

theorem State.withFetchWord_eq_present {nbits w : Nat} {r : Request} (h : tableRequest nbits w = some r) :
    s.withFetchWord nbits w = s.present r := by
  simp only [State.withFetchWord, State.presentTableWord, h]

/-- A presented request is the next taken, and taking it gives the machine back. -/
theorem step_present {r : Request} {i : Instr} (hd : decode r = .ok i) : step (s.present r) = exec i s := by
  rw [step_request (State.present_inputs s r) hd, State.present_withInputs]

end Sys2Proof.Machine

namespace Sys2Proof.Claims
open Sys2Proof.Machine

/-- Settles O8: `decode` undoes `encode` at each instruction, and `encode` undoes `decode` up to the unlisted fields, which a
well-formed request does not drive. -/
theorem decodeAndEncodeAgree : Obligations.DecodeAndEncodeAgree :=
  ⟨fun i _ => ⟨decode_encode i, encode_wellFormed i⟩,
    fun _ _ hwf hd => (encode_of_decode hd).trans (Request.wellFormed_iff_listed.1 hwf)⟩

/-- Settles O46: in a core that is not halted a transaction raises or succeeds (`exec_cases`), and answers either way. -/
theorem everyTransactionGetsOneResponse : Obligations.EveryTransactionGetsOneResponse := by
  intro i s hs
  obtain ⟨e, -, he⟩ | ⟨p, c, -, he⟩ := exec_cases i s hs
  · exact ⟨.err e, _, he⟩
  · exact ⟨.ok p, c, he⟩

/-- Settles O4: the word's request is presented first, and the step after runs what it decodes to. -/
theorem presentedTableWordRunsNext : Obligations.PresentedTableWordRunsNext := by
  intro s nbits w i h
  obtain ⟨r, hr, hd⟩ := decodeTableWord_eq_some_iff.1 h
  rw [State.withFetchWord_eq_present hr, step_present hd]

/-- Settles O6: `decodeTxn_cases` at the selector presented. -/
theorem unusedSelectorsHaveNoStep : Obligations.UnusedSelectorsHaveNoStep := by
  intro sel f s rest hin
  obtain ⟨hsel, herr⟩ | ⟨hsel, i, hok, -⟩ := decodeTxn_cases sel f
  · exact (if_pos hsel).mpr (step_noTransaction hin herr)
  · exact (if_neg hsel).mpr ⟨i, hok⟩

/-- Settles O9: each row's word stands for the request of the row's instruction; the last clause is the unused selector. -/
theorem tableWordsDecodeToTheirRows : Obligations.TableWordsDecodeToTheirRows := by
  unfold Obligations.TableWordsDecodeToTheirRows
  and_intros
  on_goal -1 => rfl
  all_goals exact decodeTableWord_of_encode rfl

/-- Settles O10: the numbering is a bijection, and each opcode's bits are its group, invert and carry-in columns. -/
theorem opcodeBitsAreGroupInvertAndCarryIn : Obligations.OpcodeBitsAreGroupInvertAndCarryIn := by
  refine ⟨Opcode.code_ofCode, Opcode.ofCode_code, fun m => ?group, fun m => ?columns⟩
  case group => cases m <;> rfl
  case columns => cases m <;> exact ⟨rfl, rfl, rfl⟩

end Sys2Proof.Claims
end

section
/-! PROOF. The ALU's transactions (40_alu_control.md R100 to R110). All the forms of `execute` have one cause of error and one
kind of effect (`cause_iff_of_isExecute`, `exists_effect_iff_delivers`), so what is said of them is said once. -/

namespace Sys2Proof.Machine

variable {i : Instr} {s t : State}

/-! ### The forms of `execute` -/

/-- An `execute` fails for one reason (R101). -/
theorem cause_iff_of_isExecute {e : Err} (hi : i.isExecute = true) :
    Cause i s e ↔ e = .notConfigured ∧ s.core.alu.configured = false := by
  cases i
  case aluConfigure | aluLast | rfCreate | rfWrite | rfRead | rfReadPair | rfClear | rfDump => cases hi
  all_goals exact Iff.rfl

/-- The result an `execute` delivers is fixed by the instruction, before any state is looked at (R109). -/
theorem exists_effect_iff_delivers (hi : i.isExecute = true) : ∃ r, ∀ s p c, Effect i s p c ↔ Delivers r s p c := by
  cases i
  case aluConfigure | aluLast | rfCreate | rfWrite | rfRead | rfReadPair | rfClear | rfDump => cases hi
  all_goals exact ⟨_, fun _ _ _ => Iff.rfl⟩

/-- A result answered is the result stored (R107), in a core that still runs. -/
theorem exec_result_stored {r : ExecResult} (h : exec i s = .next t) (hi : i.isExecute = true)
    (hr : t.responses = .ok (.result r) :: s.responses) : t.core.halted = false ∧ t.core.alu.last = some r := by
  obtain ⟨hs, ⟨e, -, rfl⟩ | ⟨p, c, hf, rfl⟩⟩ := exec_next h
  · cases hr
  · obtain ⟨r', hdelivers⟩ := exists_effect_iff_delivers hi
    obtain ⟨-, rfl, rfl⟩ := (hdelivers s p c).1 hf
    cases hr
    exact ⟨hs, rfl⟩

/-- The opcode's own row and `execute` with its number deliver the same computation (R102). -/
theorem exec_decodeOpc (op : BitVec 3) (a b : Byte) (s : State) :
    exec (decodeOpc op a b) s = exec (.aluExecute a b op) s := by
  change _ = execute (compute (Opcode.ofCode op) a b) s
  unfold decodeOpc
  rcases Opcode.ofCode op with m | m <;> cases m <;> rfl

/-! ### The adder over numbers -/

/-- R120's wide sum, with the inverted operand as `255 - B`. -/
theorem wideSum_eq (m : ArithOp) (a b : Byte) :
    wideSum m a b = a.toNat + (if invert m then 255 - b.toNat else b.toNat) + carryIn m := by
  rw [wideSum, addend_toNat]

theorem wideSum_add_self (a : Byte) : wideSum .add a a = 2 * a.toNat := by
  simp [wideSum_eq, invert, carryIn, Nat.two_mul]

theorem wideSum_sub_self (a : Byte) : wideSum .sub a a = 256 := by
  have := a.isLt
  simp only [wideSum_eq, invert, carryIn, if_true]
  omega

theorem wideSum_sbc_self (a : Byte) : wideSum .sbc a a = 255 := by
  have := a.isLt
  simp only [wideSum_eq, invert, carryIn, if_true]
  omega

end Sys2Proof.Machine

namespace Sys2Proof.Claims
open Sys2Proof.Machine

/-- The statements' flag set over numbers is the machine's derivation (R104 to R106). -/
theorem flagsOf_eq_mkFlags (c : Bool) (v : Byte) : flagsOf c v = mkFlags c v := by
  have hzero : v = 0 ↔ v.toNat = 0 := BitVec.toNat_inj.symm
  have heven : v.toNat % 2 = 0 ↔ ¬ v.toNat % 2 = 1 := Nat.mod_two_ne_one.symm
  simp only [flagsOf, mkFlags, low_bit_eq, hzero, heven, ne_eq, decide_not]

/-- Settles O22: the answer is `compute` at the opcode the number names, and the number's bit 2 says of which group it is. -/
theorem aluExecuteDispatchesOnTheGroupBit : Obligations.AluExecuteDispatchesOnTheGroupBit := by
  intro a b op
  refine ⟨rfl, fun s => (exec_decodeOpc op a b s).symm, fun s hs hconf => ?_⟩
  obtain ⟨hcode, -, hlogic, harith⟩ := opcodeBitsAreGroupInvertAndCarryIn
  have hgroup : (Opcode.ofCode op).code.getLsbD 2 = op.getLsbD 2 := by rw [hcode]
  have hanswer : Effect (.aluExecute a b op) s (.result (compute (Opcode.ofCode op) a b)) _ := ⟨hconf, rfl, rfl⟩
  simp only [flagsOf_eq_mkFlags]
  cases hop : Opcode.ofCode op with
  | arith m =>
    rw [hop] at hgroup hanswer
    exact ⟨(arith m a b).1, (arith m a b).2, answers_of_effect hs hanswer,
      fun _ => ⟨m, rfl, arith_result_toNat m a b, arith_carry m a b⟩,
      fun hset => absurd ((harith m).1.symm.trans (hgroup.trans hset)) Bool.false_ne_true⟩
  | logic m =>
    rw [hop] at hgroup hanswer
    exact ⟨logic m a b, false, answers_of_effect hs hanswer,
      fun hclear => absurd (hclear.symm.trans (hgroup.symm.trans (hlogic m))) Bool.false_ne_true,
      fun _ => ⟨m, rfl, rfl, rfl⟩⟩

/-- Settles O23: every form of `execute` has its cause there. -/
theorem executeBeforeConfigureRaisesNotConfigured : Obligations.ExecuteBeforeConfigureRaisesNotConfigured :=
  fun _ _ hi hs hconf => raises_of_cause hs ((cause_iff_of_isExecute hi).2 ⟨rfl, hconf⟩)

/-- Settles O25: the result delivered is chosen before the two states. -/
theorem executeAnswerDependsOnOperandsAndOpcodeOnly : Obligations.ExecuteAnswerDependsOnOperandsAndOpcodeOnly := by
  intro i s s' hi hs hs' hconf hconf'
  obtain ⟨r, hdelivers⟩ := exists_effect_iff_delivers hi
  exact ⟨r, answers_of_effect hs ((hdelivers s _ _).2 ⟨hconf, rfl, rfl⟩),
    answers_of_effect hs' ((hdelivers s' _ _).2 ⟨hconf', rfl, rfl⟩)⟩

/-- Settles O27: `configure` has its effect before and its cause of error after. -/
theorem configureSetsTheLatencyOnce : Obligations.ConfigureSetsTheLatencyOnce :=
  fun _ => ⟨rfl, fun _ hs =>
    ⟨fun hconf => answers_of_effect hs ⟨hconf, rfl, rfl⟩, fun hconf => raises_of_cause hs ⟨rfl, hconf⟩⟩⟩

/-- R108: `last` has no cause of error. -/
theorem answers_aluLast {s : State} (hs : s.core.halted = false) :
    Answers .aluLast s (.ok (.last s.core.alu.last)) s.core :=
  answers_of_effect hs ⟨rfl, rfl⟩

/-- Settles O28: `last` answers what is stored, and an `execute` stores what it answers. -/
theorem lastAnswersTheMostRecentResult : Obligations.LastAnswersTheMostRecentResult := by
  refine ⟨fun _ hs => answers_aluLast hs, fun i s t r h hi hr => ?_⟩
  obtain ⟨ht, hlast⟩ := exec_result_stored h hi hr
  rw [← hlast]
  exact answers_aluLast ht

/-- Settles O29: the wide sums of an operand with itself, and the idempotence laws of the logic functions. -/
theorem sameSourceTwiceHasItsClosedForms : Obligations.SameSourceTwiceHasItsClosedForms := by
  intro a
  refine ⟨?add, ?sub, ?sbc, BitVec.xor_self, BitVec.and_self, ?nor, ?norZero, ?rsh⟩
  case add => rw [arith_result_toNat, wideSum_add_self]
  case sub => rw [arith, wideSum_sub_self]; rfl
  case sbc => rw [arith, wideSum_sbc_self]; rfl
  case nor => rw [logic, BitVec.or_self]
  case norZero => exact congrArg (~~~·) BitVec.or_zero
  case rsh => rw [logic, BitVec.or_self, BitVec.toNat_ushiftRight, Nat.shiftRight_one]

end Sys2Proof.Claims
end

section
/-! PROOF. The arithmetic group (41_alu_arithmetic.md R120 to R127). An opcode's own row computes what `compute` says at its
number, for all eight rows at once (`computes_decodeOpc`); what is left of an instruction rule is the adder over numbers. -/

namespace Sys2Proof.Machine

/-! ### The rows of the opcode table -/

/-- An opcode's own row delivers the computation its number names (R102). -/
theorem effect_decodeOpc_iff (op : BitVec 3) (a b : Byte) (s : State) (p : Payload) (c : CoreState) :
    Effect (decodeOpc op a b) s p c ↔ Delivers (compute (Opcode.ofCode op) a b) s p c := by
  unfold decodeOpc
  rcases Opcode.ofCode op with m | m <;> cases m <;> exact Iff.rfl

theorem isExecute_decodeOpc (op : BitVec 3) (a b : Byte) : (decodeOpc op a b).isExecute = true := by
  unfold decodeOpc
  rcases Opcode.ofCode op with m | m <;> cases m <;> rfl

/-- No two opcodes share a row. -/
theorem decodeOpc_code_inj {o o' : Opcode} {a b : Byte} (h : decodeOpc o.code a b = decodeOpc o'.code a b) : o = o' := by
  have hrequest := congrArg encode h
  rw [encode_decodeOpc, encode_decodeOpc] at hrequest
  obtain ⟨hcode, -, -⟩ := Request.opc.inj hrequest
  rw [← Opcode.ofCode_code o, hcode, Opcode.ofCode_code]

/-! ### The adder of each opcode, over numbers -/

theorem wideSum_add (a b : Byte) : wideSum .add a b = a.toNat + b.toNat := wideSum_eq .add a b

theorem wideSum_adc (a b : Byte) : wideSum .adc a b = a.toNat + b.toNat + 1 := wideSum_eq .adc a b

theorem wideSum_sub (a b : Byte) : wideSum .sub a b = a.toNat + (255 - b.toNat) + 1 := wideSum_eq .sub a b

theorem wideSum_sbc (a b : Byte) : wideSum .sbc a b = a.toNat + (255 - b.toNat) := wideSum_eq .sbc a b

theorem arith_add_carry (a b : Byte) : (arith .add a b).2 = decide (256 ≤ a.toNat + b.toNat) := by
  rw [arith_carry, wideSum_add]

theorem arith_adc_carry (a b : Byte) : (arith .adc a b).2 = decide (256 ≤ a.toNat + b.toNat + 1) := by
  rw [arith_carry, wideSum_adc]

/-- After SUB, C means that no borrow occurred (R124). -/
theorem arith_sub_carry (a b : Byte) : (arith .sub a b).2 = decide (b.toNat ≤ a.toNat) := by
  have hb := b.isLt
  rw [arith_carry, wideSum_sub, decide_eq_decide]
  omega

/-- After SBC, C means that no borrow occurred, the borrow-in counted (R125). -/
theorem arith_sbc_carry (a b : Byte) : (arith .sbc a b).2 = decide (b.toNat < a.toNat) := by
  have hb := b.isLt
  rw [arith_carry, wideSum_sbc, decide_eq_decide]
  omega

/-! ### The four opcodes as one adder -/

theorem arith_add_result (a b : Byte) : (arith .add a b).1 = a + b := by
  apply BitVec.eq_of_toNat_eq
  rw [arith_result_toNat, wideSum_add, BitVec.toNat_add]

/-- SBC is ADD with the complement of B, in result and carry. -/
theorem arith_sbc_eq_add_not (a b : Byte) : arith .sbc a b = arith .add a (~~~b) := rfl

/-- The carry-in is all that ADC adds to ADD. -/
theorem arith_adc_result (a b : Byte) : (arith .adc a b).1 = (arith .add a b).1 + 1 :=
  BitVec.ofNat_add (wideSum .add a b) 1

/-- The carry-in is all that SUB adds to SBC. -/
theorem arith_sub_result (a b : Byte) : (arith .sub a b).1 = (arith .sbc a b).1 + 1 :=
  BitVec.ofNat_add (wideSum .sbc a b) 1

/-- SUB is ADD with the two's complement of B, in the result. -/
theorem arith_sub_result_eq_add_neg (a b : Byte) : (arith .sub a b).1 = (arith .add a (-b)).1 := by
  calc (arith .sub a b).1 = (arith .add a (~~~b)).1 + 1 := arith_sub_result a b
    _ = a + (~~~b + 1) := by rw [arith_add_result, BitVec.add_assoc]
    _ = a + -b := congrArg (a + ·) (BitVec.neg_eq_not_add b).symm
    _ = (arith .add a (-b)).1 := (arith_add_result a (-b)).symm

end Sys2Proof.Machine

namespace Sys2Proof.Claims
open Sys2Proof.Machine

/-- The instruction rule of an opcode's own row, from its computation over numbers: the request, the frame, the flags and the
error before `configure` are the same for all eight. -/
theorem computes_decodeOpc {op : BitVec 3} {a b : Byte} {result : Nat} {carry : Bool}
    (hresult : (compute (Opcode.ofCode op) a b).result.toNat = result)
    (hcarry : (compute (Opcode.ofCode op) a b).flags.c = carry) : Computes (decodeOpc op a b) op a b result carry := by
  subst hresult hcarry
  have hsound := compute_sound (Opcode.ofCode op) a b
  refine ⟨encode_decodeOpc op a b, BitVec.isLt _, fun s hs hconf => ?_, fun s hs hconf => ?_⟩
  · rw [BitVec.ofNat_toNat, BitVec.setWidth_eq, flagsOf_eq_mkFlags, ← hsound]
    exact answers_of_effect hs ((effect_decodeOpc_iff op a b s _ _).2 ⟨hconf, rfl, rfl⟩)
  · exact raises_of_cause hs ((cause_iff_of_isExecute (isExecute_decodeOpc op a b)).2 ⟨rfl, hconf⟩)

/-- Settles O12: the wide sum is `A + B`. -/
theorem addComputesTheSumModulo256 : Obligations.AddComputesTheSumModulo256 := fun a b =>
  have hresult : (arith .add a b).1.toNat = (a.toNat + b.toNat) % 256 := by rw [arith_result_toNat, wideSum_add]
  computes_decodeOpc (op := 0b000#3) hresult (arith_add_carry a b)

/-- Settles O13: the wide sum is `A + B + 1`. -/
theorem adcComputesTheSumPlusOne : Obligations.AdcComputesTheSumPlusOne := fun a b =>
  have hresult : (arith .adc a b).1.toNat = (a.toNat + b.toNat + 1) % 256 := by rw [arith_result_toNat, wideSum_adc]
  computes_decodeOpc (op := 0b001#3) hresult (arith_adc_carry a b)

/-- Settles O14: the wide sum `A + (255 - B) + 1` is `A - B` and 256 more. -/
theorem subComputesTheDifferenceAndCarryMeansNoBorrow :
    Obligations.SubComputesTheDifferenceAndCarryMeansNoBorrow := by
  intro a b
  have hwide : wideSum .sub a b = a.toNat + 256 - b.toNat := by
    have hb := b.isLt
    rw [wideSum_sub]
    omega
  have hresult : (arith .sub a b).1.toNat = (a.toNat + 256 - b.toNat) % 256 := by rw [arith_result_toNat, hwide]
  exact computes_decodeOpc (op := 0b010#3) hresult (arith_sub_carry a b)

/-- Settles O15: the wide sum `A + (255 - B)` is `A - B - 1` and 256 more. -/
theorem sbcComputesTheDifferenceLessOne : Obligations.SbcComputesTheDifferenceLessOne := by
  intro a b
  have hwide : wideSum .sbc a b = a.toNat + 255 - b.toNat := by
    have hb := b.isLt
    rw [wideSum_sbc]
    omega
  have hresult : (arith .sbc a b).1.toNat = (a.toNat + 255 - b.toNat) % 256 := by rw [arith_result_toNat, hwide]
  exact computes_decodeOpc (op := 0b011#3) hresult (arith_sbc_carry a b)

/-- Settles O20: each row is an arithmetic opcode with its wide sum, and bit 8 of that is the adder's carry-out. -/
theorem carryFlagIsTheAddersCarryOut : Obligations.CarryFlagIsTheAddersCarryOut := by
  intro a b s hs hconf row hrow
  have hopcode : ∃ m : ArithOp, row = (decodeOpc (Opcode.arith m).code a b, wideSum m a b) := by
    simp only [List.mem_cons, List.not_mem_nil, or_false] at hrow
    rcases hrow with rfl | rfl | rfl | rfl
    · exact ⟨.add, Prod.ext rfl (wideSum_add a b).symm⟩
    · exact ⟨.adc, Prod.ext rfl (wideSum_adc a b).symm⟩
    · exact ⟨.sub, Prod.ext rfl (wideSum_sub a b).symm⟩
    · exact ⟨.sbc, Prod.ext rfl (wideSum_sbc a b).symm⟩
  obtain ⟨m, rfl⟩ := hopcode
  have hanswer := answers_of_effect hs ((effect_decodeOpc_iff (Opcode.arith m).code a b s _ _).2 ⟨hconf, rfl, rfl⟩)
  rw [Opcode.ofCode_code] at hanswer
  refine ⟨compute (.arith m) a b, hanswer, rfl, rfl, fun hsub => ?_, fun hsbc => ?_⟩
  · obtain rfl : m = .sub := Opcode.arith.inj (decodeOpc_code_inj hsub)
    change (arith .sub a b).2 = true ↔ _
    rw [arith_sub_carry, decide_eq_true_iff, Nat.not_lt]
  · obtain rfl : m = .sbc := Opcode.arith.inj (decodeOpc_code_inj hsbc)
    change (arith .sbc a b).2 = true ↔ _
    rw [arith_sbc_carry, decide_eq_true_iff, Nat.not_lt, Nat.succ_le_iff]

/-- Settles O30: the four opcodes differ in the second operand and the carry-in only. -/
theorem arithmeticIdentitiesHold : Obligations.ArithmeticIdentitiesHold := by
  intro a b
  refine ⟨?sub, congrArg Prod.fst (arith_sbc_eq_add_not a b), ?sbc, arith_adc_result a b, ?subCarry, ?sbcCarry, ?addCarry⟩
  case sub => rw [arith_sub_result_eq_add_neg]; exact congrArg (fun v => (arith .add a v).1) (BitVec.zero_sub b).symm
  case sbc => rw [arith_sub_result]; exact (BitVec.add_sub_cancel _ _).symm
  case subCarry => rw [arith_sub_carry, decide_eq_true_iff]
  case sbcCarry => rw [arith_sbc_carry, decide_eq_true_iff]
  case addCarry => rw [arith_add_carry, decide_eq_true_iff, Nat.succ_le_iff]

end Sys2Proof.Claims
end

section
/-! PROOF. The logic group (42_alu_logic.md R140 to R144). An opcode's own row computes what `compute` says at its number
(`computes_decodeOpc`) and a logic opcode's carry is the constant 0, so what is left of an instruction rule is the value of its
function over numbers; R140's rule of the whole group then follows from the four instruction rules. -/

namespace Sys2Proof.Machine

/-! ### The logic functions over numbers -/

theorem logic_nor_toNat (a b : Byte) : (logic .nor a b).toNat = 255 - (a.toNat ||| b.toNat) := by
  rw [logic, BitVec.toNat_not, BitVec.toNat_or]

theorem logic_and_toNat (a b : Byte) : (logic .and a b).toNat = a.toNat &&& b.toNat := BitVec.toNat_and a b

theorem logic_xor_toNat (a b : Byte) : (logic .xor a b).toNat = a.toNat ^^^ b.toNat := BitVec.toNat_xor a b

theorem logic_rsh_toNat (a b : Byte) : (logic .rsh a b).toNat = (a.toNat ||| b.toNat) / 2 := by
  rw [logic, BitVec.toNat_ushiftRight, Nat.shiftRight_one, BitVec.toNat_or]

/-- The shift clears bit 7. -/
theorem logic_rsh_le (a b : Byte) : (logic .rsh a b).toNat ≤ 127 := by
  have hor : (a ||| b).toNat < 256 := BitVec.isLt _
  rw [logic_rsh_toNat, ← BitVec.toNat_or]
  omega

end Sys2Proof.Machine

namespace Sys2Proof.Claims
open Sys2Proof.Machine

/-- Settles O16: the complement of a byte is its difference from 255. -/
theorem norComputesTheComplementOfOr : Obligations.NorComputesTheComplementOfOr := fun a b =>
  computes_decodeOpc (op := 0b100#3) (logic_nor_toNat a b) rfl

/-- Settles O17: the conjunction of bytes is that of their numbers. -/
theorem andComputesBitwiseAnd : Obligations.AndComputesBitwiseAnd := fun a b =>
  computes_decodeOpc (op := 0b101#3) (logic_and_toNat a b) rfl

/-- Settles O18: the exclusive disjunction of bytes is that of their numbers. -/
theorem xorComputesBitwiseXor : Obligations.XorComputesBitwiseXor := fun a b =>
  computes_decodeOpc (op := 0b110#3) (logic_xor_toNat a b) rfl

/-- Settles O19: a logical shift by 1 halves the number. -/
theorem rshComputesHalfOfOr : Obligations.RshComputesHalfOfOr := fun a b =>
  ⟨computes_decodeOpc (op := 0b111#3) (logic_rsh_toNat a b) rfl, logic_rsh_toNat a b ▸ logic_rsh_le a b⟩

/-- Settles O21: each row has its instruction rule, with carry 0, and the flags of that rule are read off its result. -/
theorem logicGroupComputesItsFunctionAndReportsNotCarry :
    Obligations.LogicGroupComputesItsFunctionAndReportsNotCarry := by
  intro a b s hs hconf row hrow
  have hrule : ∃ op, Computes row.1 op a b row.2 false := by
    simp only [List.mem_cons, List.not_mem_nil, or_false] at hrow
    rcases hrow with rfl | rfl | rfl | rfl
    · exact ⟨_, norComputesTheComplementOfOr a b⟩
    · exact ⟨_, andComputesBitwiseAnd a b⟩
    · exact ⟨_, xorComputesBitwiseXor a b⟩
    · exact ⟨_, (rshComputesHalfOfOr a b).1⟩
  obtain ⟨op, -, hlt, hanswer, -⟩ := hrule
  have hvalue : (BitVec.ofNat 8 row.2).toNat = row.2 := (BitVec.toNat_ofNat row.2 8).trans (Nat.mod_eq_of_lt hlt)
  refine ⟨_, hanswer s hs hconf, hvalue, rfl, rfl, ?_⟩
  simp only [flagsOf, hvalue, decide_eq_true_iff, and_self]

end Sys2Proof.Claims
end

section
/-! PROOF. The register file's transactions (43_register_file.md R160 to R169). A `Ready` file is put once in the terms of
`Cause` and `Effect` (`Ready.sizeByte_eq`, `Ready.reserved_iff`), and stays ready where only cells differ. -/

namespace Sys2Proof.Machine

/-- The cell written reads as written, unless it is the reserved one (10_state.md R22, R23). -/
theorem RegFile.readCell_writeCell_self (rf : RegFile) (addr v : Byte) :
    (rf.writeCell addr v).readCell addr = if rf.reserved addr = true then 0 else v := by
  rw [readCell_writeCell]
  cases hres : rf.reserved addr with
  | false => simp
  | true => simp [hres]

end Sys2Proof.Machine

namespace Sys2Proof.Claims
open Sys2Proof.Machine

variable {s t : State} {n : Byte} {z : Bool} {addr : Byte}

/-! ### A ready file -/

theorem Ready.sizeByte_eq (h : Ready s n z) : s.core.rf.sizeByte = n := by
  obtain ⟨-, -, hn, -⟩ := h
  rw [RegFile.sizeByte, hn, Option.getD_some]

/-- The reserved index in the words of the statements (10_state.md R22). -/
theorem Ready.reserved_iff (h : Ready s n z) : s.core.rf.reserved addr = true ↔ z = true ∧ addr = 0 := by
  obtain ⟨-, -, -, hz⟩ := h
  simp [RegFile.reserved, hz]

/-- A file stays ready where nothing but cells differs. -/
theorem Ready.of_onlyCellsMayDiffer (h : Ready s n z) (hkeep : OnlyCellsMayDiffer s.core t.core) : Ready t n z := by
  obtain ⟨hs, hc, hn, hz⟩ := h
  obtain ⟨-, hhalted, hcreated, hsize, hzero, -, -⟩ := hkeep
  exact ⟨hhalted.trans hs, hcreated.trans hc, hsize.trans hn, hzero.trans hz⟩

theorem onlyCellsMayDiffer_writeCell (c : CoreState) (addr v : Byte) :
    OnlyCellsMayDiffer c { c with rf := c.rf.writeCell addr v } :=
  ⟨rfl, rfl, c.rf.writeCell_config addr v⟩

theorem onlyCellsMayDiffer_clearCells (c : CoreState) : OnlyCellsMayDiffer c { c with rf := c.rf.clearCells } :=
  ⟨rfl, rfl, rfl, rfl, rfl, rfl, rfl⟩

/-! ### The transactions on a valid cell -/

/-- R162 at a valid cell, reserved or not. -/
theorem Ready.answers_rfWrite (h : Ready s n z) (hr : addr.toNat < n.toNat) (v : Byte) :
    Answers (.rfWrite addr v) s (.ok (.notice (s.core.rf.reserved addr)))
      { s.core with rf := s.core.rf.writeCell addr v } := by
  obtain rfl := h.sizeByte_eq
  obtain ⟨hs, hc, -, -⟩ := h
  exact answers_of_effect hs ⟨hc, hr, rfl, rfl⟩

/-- R163 at a valid cell. -/
theorem Ready.answers_rfRead (h : Ready s n z) (hr : addr.toNat < n.toNat) :
    Answers (.rfRead addr) s (.ok (.value (cellValue s z addr))) s.core := by
  obtain rfl := h.sizeByte_eq
  obtain ⟨hs, hc, -, hz⟩ := h
  exact answers_of_effect hs ⟨hc, hr, congrArg Payload.value (cellValue_eq_readCell hz), rfl⟩

/-- R164 at two valid cells. -/
theorem Ready.answers_rfReadPair {a b : Byte} (h : Ready s n z) (ha : a.toNat < n.toNat) (hb : b.toNat < n.toNat) :
    Answers (.rfReadPair a b) s (.ok (.pair (cellValue s z a) (cellValue s z b))) s.core := by
  obtain rfl := h.sizeByte_eq
  obtain ⟨hs, hc, -, hz⟩ := h
  exact answers_of_effect hs
    ⟨hc, ha, hb, congrArg₂ Payload.pair (cellValue_eq_readCell hz) (cellValue_eq_readCell hz), rfl⟩

/-! ### The obligations -/

/-- Settles O31: `create` has its effect before, with no cell listed, and its cause of error after. -/
theorem createAllocatesZeroedCellsOnce : Obligations.CreateAllocatesZeroedCellsOnce := by
  intro n z rl wl
  refine ⟨rfl, fun s hs => ⟨fun hnew => ?_, fun hc => raises_of_cause hs ⟨rfl, hc⟩⟩⟩
  exact ⟨_, answers_of_effect hs ⟨hnew, rfl, rfl⟩, rfl, hs, rfl, rfl, rfl, rfl, rfl, CellLaws.read_nil⟩

/-- Settles O32: the causes of error in their order; else the cell is written, which at a reserved cell 0 leaves the file. -/
theorem writeSetsOneCellOrIsDiscarded : Obligations.WriteSetsOneCellOrIsDiscarded := by
  intro addr v
  refine ⟨rfl, fun s hs hnew => raises_of_cause hs (.inl ⟨rfl, hnew⟩), fun s n z h => ?_⟩
  split_ifs with hout hdiscard
  · obtain rfl := h.sizeByte_eq
    obtain ⟨hs, hc, -, -⟩ := h
    exact raises_of_cause hs (.inr ⟨rfl, hc, hout⟩)
  · have hres : s.core.rf.reserved addr = true := h.reserved_iff.2 hdiscard
    have hsame : s.core.rf.writeCell addr v = s.core.rf := if_pos hres
    simpa only [hres, hsame] using h.answers_rfWrite (Nat.lt_of_not_le hout) v
  · have hres : s.core.rf.reserved addr = false := Bool.eq_false_iff.2 (mt h.reserved_iff.1 hdiscard)
    refine ⟨_, hres ▸ h.answers_rfWrite (Nat.lt_of_not_le hout) v, onlyCellsMayDiffer_writeCell _ _ _, fun j => ?_⟩
    simp only [RegFile.writeCell_cell_read, hres, true_and]

/-- Settles O33: the causes of error in their order, else the answer at a valid cell. -/
theorem readAnswersTheCell : Obligations.ReadAnswersTheCell := by
  intro addr
  refine ⟨rfl, fun s hs hnew => raises_of_cause hs (.inl ⟨rfl, hnew⟩), fun s n z h => ?_⟩
  split_ifs with hout
  · obtain rfl := h.sizeByte_eq
    obtain ⟨hs, hc, -, -⟩ := h
    exact raises_of_cause hs (.inr ⟨rfl, hc, hout⟩)
  · exact h.answers_rfRead (Nat.lt_of_not_le hout)

/-- Settles O34: the causes of error in their order, the second address's after the first's, else the answer at two valid
cells. -/
theorem readPairAnswersBothCellsOfOneState : Obligations.ReadPairAnswersBothCellsOfOneState := by
  intro a b
  refine ⟨rfl, fun s hs hnew => raises_of_cause hs (.inl ⟨rfl, hnew⟩), fun s n z h => ?_⟩
  obtain rfl := h.sizeByte_eq
  have ⟨hs, hc, _, _⟩ := h
  split_ifs with ha hb
  · exact raises_of_cause hs (.inr (.inl ⟨rfl, hc, ha⟩))
  · exact raises_of_cause hs (.inr (.inr ⟨rfl, hc, Nat.lt_of_not_le ha, hb⟩))
  · exact h.answers_rfReadPair (Nat.lt_of_not_le ha) (Nat.lt_of_not_le hb)

/-- Settles O35: a `read` leaves CORE as it was, so the second one meets the same ready file. -/
theorem readPairEqualsTwoReads : Obligations.ReadPairEqualsTwoReads := by
  intro s n z a b h ha hb
  exact ⟨cellValue s z a, cellValue s z b, s.record (.ok (.value (cellValue s z a))), h.answers_rfReadPair ha hb,
    h.answers_rfRead ha, rfl, Ready.answers_rfRead (s := s.record _) h hb⟩

/-- Settles O36: the file with its cells cleared reads 0 at every valid cell and keeps a reserved cell 0 as stored. -/
theorem clearZeroesEveryCellAndKeepsTheConfiguration : Obligations.ClearZeroesEveryCellAndKeepsTheConfiguration := by
  refine ⟨rfl, fun s hs hnew => raises_of_cause hs ⟨rfl, hnew⟩, fun s n z h => ?_⟩
  obtain rfl := h.sizeByte_eq
  obtain ⟨hs, hc, -, hz⟩ := h
  refine ⟨_, answers_of_effect hs ⟨hc, rfl, rfl⟩, onlyCellsMayDiffer_clearCells _,
    fun addr hr => readCell_clearCells _ addr hr, fun j => ?_⟩
  simp only [RegFile.clearCells, CellLaws.read_clearBelow, hz, Option.getD_some]

/-- Settles O37: the sequence `dump` answers is `listCells`. -/
theorem dumpListsEveryCellInOrder : Obligations.DumpListsEveryCellInOrder := by
  refine ⟨rfl, fun s hs hnew => raises_of_cause hs ⟨rfl, hnew⟩, fun s n z h => ?_⟩
  obtain rfl := h.sizeByte_eq
  obtain ⟨hs, hc, -, hz⟩ := h
  refine ⟨_, answers_of_effect hs ⟨hc, rfl, rfl⟩, listCells_length _, fun addr hr => ?_⟩
  rw [listCells_get _ _ hr, cellValue_eq_readCell hz]

/-- Settles O38: the write leaves the file ready, and a read of index 0 sees the value written unless the index is reserved. -/
theorem zeroRegisterLawsHold : Obligations.ZeroRegisterLawsHold := by
  intro s n z v h hn
  refine ⟨_, h.answers_rfWrite (addr := 0) hn v, ?_⟩
  have hready := h.of_onlyCellsMayDiffer (t := s.withRf (s.core.rf.writeCell 0 v)) (onlyCellsMayDiffer_writeCell _ 0 v)
  have hvalue : cellValue (s.withRf (s.core.rf.writeCell 0 v)) z 0 = if z = true then 0 else v := by
    obtain ⟨-, -, -, hz⟩ := hready
    rw [cellValue_eq_readCell hz, State.withRf_rf, RegFile.readCell_writeCell_self]
    simp only [h.reserved_iff, and_true]
  rw [← hvalue]
  exact Answers.record (hready.answers_rfRead (addr := 0) hn) _

end Sys2Proof.Claims
end

section
/-! PROOF. The carry chains (44_orchestration.md R193). Both chains are one adder over whole numbers: the opcode a chain chooses
for a byte fixes the second operand by the chain alone and takes the carry so far as its carry-in, so the carries of the bytes
add up to the carry of the whole (`runChain_sum`). To subtract is to add the complement of every byte. -/

namespace Sys2Proof.Machine

/-! ### One byte of a chain -/

/-- The byte a chain adds to the first operand's (R120's `B'`). -/
def Chain.addend : Chain → Byte → Byte
  | .add, b => b
  | .subtract, b => ~~~b

theorem addend_chainOpcode (k : Chain) (c : Option Bool) (b : Byte) : addend (chainOpcode k c) b = k.addend b := by
  rcases k with _ | _ <;> rcases c with _ | _ | _ <;> rfl

/-- R193 chooses the opcode whose constant carry-in is the earlier byte's carry. -/
theorem carryIn_chainOpcode_some (k : Chain) (c : Bool) : carryIn (chainOpcode k (some c)) = c.toNat := by
  cases k <;> cases c <;> rfl

theorem wideSum_chainOpcode (k : Chain) (c : Option Bool) (a b : Byte) :
    wideSum (chainOpcode k c) a b = a.toNat + (k.addend b).toNat + carryIn (chainOpcode k c) := by
  rw [wideSum, addend_chainOpcode]

/-- Result and carry-out are the wide sum (R120). -/
theorem arith_result_add_carry (m : ArithOp) (a b : Byte) :
    (arith m a b).1.toNat + 256 * (arith m a b).2.toNat = wideSum m a b := by
  have hlt := wideSum_lt m a b
  rw [arith_result_toNat, arith_carry]
  by_cases hcarry : 256 ≤ wideSum m a b
  · rw [decide_eq_true hcarry, Bool.toNat_true]
    omega
  · rw [decide_eq_false hcarry, Bool.toNat_false]
    omega

/-! ### Numbers of many bytes -/

theorem bytesToNat_cons (b : Byte) (l : List Byte) : bytesToNat (b :: l) = b.toNat + 256 * bytesToNat l := rfl

theorem bytesToNat_lt (l : List Byte) : bytesToNat l < 256 ^ l.length := by
  induction l with
  | nil => exact Nat.one_pos
  | cons b l ih =>
    have hb := b.isLt
    rw [bytesToNat_cons, List.length_cons, Nat.pow_succ]
    omega

/-- A number and its complement, byte by byte, make 256 to the number of bytes less 1. -/
theorem bytesToNat_map_not (l : List Byte) : bytesToNat (l.map (~~~·)) + bytesToNat l + 1 = 256 ^ l.length := by
  induction l with
  | nil => rfl
  | cons b l ih =>
    have hb := b.isLt
    rw [List.map_cons, bytesToNat_cons, bytesToNat_cons, List.length_cons, Nat.pow_succ, BitVec.toNat_not]
    omega

/-! ### A whole chain -/

theorem runChain_length (k : Chain) (c : Option Bool) (pairs : List (Byte × Byte)) :
    (runChain k c pairs).1.length = pairs.length := by
  induction pairs generalizing c with
  | nil => rfl
  | cons pair rest ih => exact congrArg Nat.succ (ih _)

/-- A chain with a carry so far ends with a carry. -/
theorem exists_runChain_carry (k : Chain) (c : Bool) (pairs : List (Byte × Byte)) :
    ∃ last, (runChain k (some c) pairs).2 = some last := by
  induction pairs generalizing c with
  | nil => exact ⟨c, rfl⟩
  | cons pair rest ih => exact ih _

/-- The chain's bytes and its last carry are the sum of the whole numbers and the carry so far. -/
theorem runChain_sum (k : Chain) (c : Option Bool) (pairs : List (Byte × Byte)) :
    bytesToNat (runChain k c pairs).1 + 256 ^ pairs.length * carryIn (chainOpcode k (runChain k c pairs).2) =
      bytesToNat (pairs.map Prod.fst) + bytesToNat ((pairs.map Prod.snd).map k.addend) + carryIn (chainOpcode k c) := by
  induction pairs generalizing c with
  | nil => simp [runChain, bytesToNat]
  | cons pair rest ih =>
    obtain ⟨a, b⟩ := pair
    have hbyte := arith_result_add_carry (chainOpcode k c) a b
    have hrest := ih (some (arith (chainOpcode k c) a b).2)
    rw [wideSum_chainOpcode] at hbyte
    rw [carryIn_chainOpcode_some] at hrest
    simp only [runChain, List.map_cons, bytesToNat_cons, List.length_cons, Nat.pow_succ', Nat.mul_assoc]
    omega

/-- The bytes of a chain from byte 0 are its total modulo 256 to the number of bytes, and its last carry says that the total
does not fit in them. -/
theorem runChain_none {k : Chain} {pairs : List (Byte × Byte)} (hne : pairs ≠ []) {total : Nat}
    (htotal : bytesToNat (pairs.map Prod.fst) + bytesToNat ((pairs.map Prod.snd).map k.addend) +
      carryIn (chainOpcode k none) = total) :
    bytesToNat (runChain k none pairs).1 = total % 256 ^ pairs.length ∧
      (runChain k none pairs).2 = some (decide (256 ^ pairs.length ≤ total)) := by
  have hlast : ∃ last, (runChain k none pairs).2 = some last := by
    cases pairs with
    | nil => exact absurd rfl hne
    | cons pair rest => exact exists_runChain_carry k _ rest
  obtain ⟨last, hlast⟩ := hlast
  have hlt := bytesToNat_lt (runChain k none pairs).1
  have hsum := (runChain_sum k none pairs).trans htotal
  rw [runChain_length] at hlt
  rw [hlast, carryIn_chainOpcode_some] at hsum
  rw [hlast, ← hsum, Nat.add_mul_mod_self_left, Nat.mod_eq_of_lt hlt]
  cases last <;> simp [hlt]

end Sys2Proof.Machine

namespace Sys2Proof.Claims
open Sys2Proof.Machine

/-- Settles O56: the add chain adds the bytes themselves with no carry-in, the subtract chain their complements with carry-in
1, which is `m - y` in all. -/
theorem carryChainComputesMultiByteSumsAndDifferences : Obligations.CarryChainComputesMultiByteSumsAndDifferences := by
  intro pairs hne x y m
  have hy : y < m := by simpa using bytesToNat_lt (pairs.map Prod.snd)
  have hnot : bytesToNat ((pairs.map Prod.snd).map Chain.subtract.addend) + y + 1 = m :=
    (bytesToNat_map_not (pairs.map Prod.snd)).trans (by rw [List.length_map])
  have hadd : x + bytesToNat ((pairs.map Prod.snd).map Chain.add.addend) + 0 = x + y := by
    rw [show Chain.add.addend = id from rfl, List.map_id, Nat.add_zero]
  have hsub : x + bytesToNat ((pairs.map Prod.snd).map Chain.subtract.addend) + 1 = x + m - y := by omega
  obtain ⟨hsum, hcarry⟩ := runChain_none (k := .add) hne hadd
  obtain ⟨hdiff, hborrow⟩ := runChain_none (k := .subtract) hne hsub
  refine ⟨hsum, hcarry, hdiff, hborrow.trans ?_⟩
  rw [Option.some_inj, decide_eq_decide]
  omega

end Sys2Proof.Claims
end

section
/-! PROOF. The pseudo-instructions (44_orchestration.md R191). The register-file accesses of an expansion are put in the terms
of `Cause` and `Effect` (`AccessRaises.cause_rfReadPair`, `AccessSucceeds.mem`); then each part of an expansion, the reads, the
`execute` and the write-back, is said once for its success and once for its error, and an expansion is their composition. -/

namespace Sys2Proof.Machine
open Sys2Proof.Claims

/-! ### One transaction of the orchestrator -/

/-- The orchestrator after a transaction that left CORE state `c` and was answered `r`. -/
def Orch.received (o : Orch) (r : Response) (c : CoreState) : Orch :=
  { o with machine := (o.machine.withCore c).record r, flags := flagsAfter r o.flags }

/-- The orchestrator after an error (60_exceptions.md R203, R206). -/
def Orch.failed (o : Orch) (e : Err) : Orch := o.received (.err e) (stopped o.machine o.machine.core)

/-- The orchestrator after a successful `execute` (40_alu_control.md R107). -/
def Orch.executed (o : Orch) (r : ExecResult) : Orch :=
  o.received (.ok (.result r)) { o.machine.core with alu := { o.machine.core.alu with last := some r } }

/-- The orchestrator after responses that changed neither CORE nor the flags. -/
def Orch.answered (o : Orch) (reads : List Response) : Orch :=
  { o with machine := { o.machine with responses := reads ++ o.machine.responses } }

/-- The register file after the write-back of `v` (R191). -/
def RegFile.writeDest (rf : RegFile) (dst : Option Byte) (v : Byte) : RegFile := dst.elim rf (rf.writeCell · v)

variable {i : Instr} {o : Orch}

theorem issue_of_answers {r : Response} {c : CoreState} (h : Answers i o.machine r c) :
    issue i o = .ok (r, o.received r c) := by
  rw [issue, h]
  rfl

theorem issue_of_cause {e : Err} (hs : o.machine.core.halted = false) (h : Cause i o.machine e) :
    issue i o = .ok (.err e, o.failed e) :=
  issue_of_answers (raises_of_cause hs h)

theorem issue_of_effect {p : Payload} {c : CoreState} (hs : o.machine.core.halted = false)
    (h : Effect i o.machine p c) : issue i o = .ok (.ok p, o.received (.ok p) c) :=
  issue_of_answers (answers_of_effect hs h)

theorem issue_aluExecute_of_configured (op : Opcode) (a b : Byte) (hs : o.machine.core.halted = false)
    (hconf : o.machine.core.alu.configured = true) :
    issue (.aluExecute a b op.code) o = .ok (.ok (.result (compute op a b)), o.executed (compute op a b)) := by
  have heffect : Effect (.aluExecute a b op.code) o.machine _ _ := ⟨hconf, rfl, rfl⟩
  rw [Opcode.ofCode_code] at heffect
  exact issue_of_effect hs heffect

end Sys2Proof.Machine

namespace Sys2Proof.Claims
open Sys2Proof.Machine

/-! ### Accesses to the register file -/

section
variable {s : State} {regs : List Byte} {e : Err} {i j : Byte}

theorem AccessSucceeds.mem (h : AccessSucceeds s regs) (hi : i ∈ regs) :
    s.core.rf.created = true ∧ i.toNat < s.core.rf.sizeByte.toNat := by
  obtain ⟨hc, n, hn, hlt⟩ := h i hi
  exact ⟨hc, by rwa [RegFile.sizeByte, hn]⟩

theorem not_accessRaises_nil : ¬ AccessRaises s [] e := by
  rintro (⟨hne, -⟩ | ⟨-, n, i, -, hfind, -⟩)
  · exact hne rfl
  · cases hfind

/-- The error of an access, with the size as the register file holds it. -/
theorem AccessRaises.cases (h : AccessRaises s regs e) :
    (s.core.rf.created = false ∧ e = .notCreated) ∨
    (s.core.rf.created = true ∧ ∃ k, regs.find? (fun i => decide (s.core.rf.sizeByte.toNat ≤ i.toNat)) = some k ∧
      e = .addressOutOfRange k s.core.rf.sizeByte) := by
  obtain ⟨-, hnew, he⟩ | ⟨hc, n, k, hn, hfind, he⟩ := h
  · exact .inl ⟨hnew, he⟩
  · rw [RegFile.sizeByte, hn]
    exact .inr ⟨hc, k, hfind, he⟩

theorem AccessRaises.cause_rfRead (h : AccessRaises s [i] e) : Cause (.rfRead i) s e := by
  obtain ⟨hnew, rfl⟩ | ⟨hc, k, hfind, rfl⟩ := h.cases
  · exact .inl ⟨rfl, hnew⟩
  · obtain ⟨hout, rfl⟩ : s.core.rf.sizeByte.toNat ≤ i.toNat ∧ i = k := by simpa using hfind
    exact .inr ⟨rfl, hc, hout⟩

/-- A `write` fails as a `read` of its address does. -/
theorem AccessRaises.cause_rfWrite (h : AccessRaises s [i] e) (v : Byte) : Cause (.rfWrite i v) s e := h.cause_rfRead

theorem AccessRaises.cause_rfReadPair (h : AccessRaises s [i, j] e) : Cause (.rfReadPair i j) s e := by
  obtain ⟨hnew, rfl⟩ | ⟨hc, k, hfind, rfl⟩ := h.cases
  · exact .inl ⟨rfl, hnew⟩
  · by_cases hi : s.core.rf.sizeByte.toNat ≤ i.toNat
    · obtain rfl : i = k := by simpa [hi] using hfind
      exact .inr (.inl ⟨rfl, hc, hi⟩)
    · obtain ⟨hj, rfl⟩ : s.core.rf.sizeByte.toNat ≤ j.toNat ∧ j = k := by simpa [hi] using hfind
      exact .inr (.inr ⟨rfl, hc, Nat.lt_of_not_le hi, hj⟩)

end

/-! ### The reads -/

variable {o o₁ : Orch} {e : Err}

theorem readSources_of_raises {a b : Source} (hs : o.machine.core.halted = false)
    (h : AccessRaises o.machine (regOf a ++ regOf b) e) : readSources a b o = .ok (none, o.failed e) := by
  cases a with
  | reg i =>
    cases b with
    | reg j => rw [readSources, issue_of_cause hs h.cause_rfReadPair]
    | imm k => rw [readSources, issue_of_cause hs h.cause_rfRead]
  | imm k =>
    cases b with
    | reg j => rw [readSources, issue_of_cause hs h.cause_rfRead]
    | imm k' => exact absurd h not_accessRaises_nil

/-- The reads answer the sources' values in at most one response, and leave CORE and the flags as they were. -/
theorem readSources_of_succeeds {a b : Source} (hs : o.machine.core.halted = false)
    (h : AccessSucceeds o.machine (regOf a ++ regOf b)) :
    ∃ reads : List Response, reads.length = (if regOf a ++ regOf b = [] then 0 else 1) ∧
      (∀ r ∈ reads, r.isErr = false) ∧
      readSources a b o = .ok (some (sourceRead o.machine a, sourceRead o.machine b), o.answered reads) := by
  have hone : ∀ p : Payload, ∀ r ∈ [Response.ok p], r.isErr = false := by simp [Response.isErr]
  cases a with
  | reg i =>
    obtain ⟨hc, hi⟩ := h.mem (i := i) List.mem_cons_self
    cases b with
    | reg j =>
      obtain ⟨-, hj⟩ := h.mem (i := j) (List.mem_cons_of_mem _ List.mem_cons_self)
      have hread : Effect (.rfReadPair i j) o.machine _ _ := ⟨hc, hi, hj, rfl, rfl⟩
      exact ⟨_, rfl, hone _, by rw [readSources, issue_of_effect hs hread]; rfl⟩
    | imm k =>
      have hread : Effect (.rfRead i) o.machine _ _ := ⟨hc, hi, rfl, rfl⟩
      exact ⟨_, rfl, hone _, by rw [readSources, issue_of_effect hs hread]; rfl⟩
  | imm k =>
    cases b with
    | reg j =>
      obtain ⟨hc, hj⟩ := h.mem (i := j) List.mem_cons_self
      have hread : Effect (.rfRead j) o.machine _ _ := ⟨hc, hj, rfl, rfl⟩
      exact ⟨_, rfl, hone _, by rw [readSources, issue_of_effect hs hread]; rfl⟩
    | imm k' => exact ⟨[], rfl, nofun, rfl⟩

/-! ### The `execute` and the write-back -/

section
variable {p : Pseudo} {v : Byte × Byte}

theorem runPseudo_of_unconfigured (hread : readSources p.srcA p.srcB o = .ok (some v, o₁))
    (hs : o₁.machine.core.halted = false) (hconf : o₁.machine.core.alu.configured = false) :
    runPseudo p o = .ok (o₁.failed .notConfigured) := by
  have hcause : Cause (.aluExecute v.1 v.2 p.op.code) o₁.machine .notConfigured := ⟨rfl, hconf⟩
  simp only [runPseudo, hread, issue_of_cause hs hcause]

theorem runPseudo_of_configured (hread : readSources p.srcA p.srcB o = .ok (some v, o₁))
    (hs : o₁.machine.core.halted = false) (hconf : o₁.machine.core.alu.configured = true) :
    runPseudo p o = writeBack p.dst (compute p.op v.1 v.2).result (o₁.executed (compute p.op v.1 v.2)) := by
  simp only [runPseudo, hread, issue_aluExecute_of_configured p.op v.1 v.2 hs hconf]

end

theorem writeBack_of_raises {dst : Option Byte} (v : Byte) (hs : o.machine.core.halted = false)
    (h : AccessRaises o.machine dst.toList e) : writeBack dst v o = .ok (o.failed e) := by
  cases dst with
  | none => exact absurd h not_accessRaises_nil
  | some d => rw [writeBack, issue_of_cause hs (h.cause_rfWrite v)]

theorem writeBack_of_succeeds {dst : Option Byte} (v : Byte) (hs : o.machine.core.halted = false)
    (h : AccessSucceeds o.machine dst.toList) :
    ∃ o' : Orch, writeBack dst v o = .ok o' ∧ o'.line = o.line ∧ o'.flags = o.flags ∧
      o'.machine.core = { o.machine.core with rf := o.machine.core.rf.writeDest dst v } := by
  cases dst with
  | none => exact ⟨o, rfl, rfl, rfl, rfl⟩
  | some d =>
    obtain ⟨hc, hd⟩ := h.mem (i := d) List.mem_cons_self
    have hwrite : Effect (.rfWrite d v) o.machine _ _ := ⟨hc, hd, rfl, rfl⟩
    refine ⟨o.received (.ok (.notice (o.machine.core.rf.reserved d)))
      { o.machine.core with rf := o.machine.core.rf.writeCell d v }, ?_, rfl, rfl, rfl⟩
    rw [writeBack, issue_of_effect hs hwrite]

/-! ### A whole expansion -/

/-- Settles O55: the reads stop at their error, the `execute` at its own, and the write-back at its own after the result. -/
theorem pseudoInstructionStopsAtTheFirstError : Obligations.PseudoInstructionStopsAtTheFirstError := by
  intro p o hs
  refine ⟨fun e he => ?_, fun hregs => ?_⟩
  · simp only [runPseudo, readSources_of_raises hs he]
    rfl
  · obtain ⟨reads, hlength, hok, hread⟩ := readSources_of_succeeds hs hregs
    refine ⟨reads, hlength, hok, fun hconf => runPseudo_of_unconfigured hread hs hconf, fun hconf e he => ?_⟩
    exact (runPseudo_of_configured hread hs hconf).trans (writeBack_of_raises _ hs he)

/-- An expansion without an error: the flags are the result's, `alu.last` is overwritten and the destination written. -/
theorem runPseudo_of_succeeds {p : Pseudo} (hs : o.machine.core.halted = false)
    (hconf : o.machine.core.alu.configured = true) (hregs : AccessSucceeds o.machine (sourceRegs p))
    (hdst : AccessSucceeds o.machine p.dst.toList) {r : ExecResult}
    (hr : compute p.op (sourceRead o.machine p.srcA) (sourceRead o.machine p.srcB) = r) :
    ∃ o' : Orch, runPseudo p o = .ok o' ∧ o'.line = o.line ∧ o'.flags = some r.flags ∧
      o'.machine.core = { o.machine.core with
        alu := { o.machine.core.alu with last := some r }
        rf := o.machine.core.rf.writeDest p.dst r.result } := by
  subst hr
  obtain ⟨reads, -, -, hread⟩ := readSources_of_succeeds hs hregs
  obtain ⟨o', hwrite, hline, hflags, hcore⟩ := writeBack_of_succeeds (o := (o.answered reads).executed _) _ hs hdst
  exact ⟨o', (runPseudo_of_configured hread hs hconf).trans hwrite, hline, hflags, hcore⟩

/-! ### From a ready file -/

section
variable {s t : State} {n : Byte} {z : Bool}

theorem Ready.accessSucceeds {regs : List Byte} (h : Ready s n z) (hlt : ∀ i ∈ regs, i.toNat < n.toNat) :
    AccessSucceeds s regs := by
  obtain ⟨-, hc, hn, -⟩ := h
  exact fun i hi => ⟨hc, n, hn, hlt i hi⟩

theorem Ready.sourceRead_eq (h : Ready s n z) (a : Source) : sourceRead s a = sourceValue s z a := by
  obtain ⟨-, -, -, hz⟩ := h
  cases a with
  | reg i => exact (cellValue_eq_readCell hz).symm
  | imm k => rfl

theorem Ready.writeDest (h : Ready s n z) {dst : Option Byte} {v : Byte} (hs : t.core.halted = s.core.halted)
    (hrf : t.core.rf = s.core.rf.writeDest dst v) : Ready t n z := by
  rw [Ready, hs, hrf]
  cases dst with
  | none => exact h
  | some d => simpa [RegFile.writeDest, Ready] using h

/-- A cell after the write-back (R191): a result for a reserved cell 0 is discarded. -/
theorem Ready.readCell_writeDest (h : Ready s n z) (dst : Option Byte) (v addr : Byte) :
    (s.core.rf.writeDest dst v).readCell addr =
      if dst = some addr ∧ ¬(z = true ∧ addr = 0) then v else s.core.rf.readCell addr := by
  have hres : s.core.rf.reserved addr = false ↔ ¬(z = true ∧ addr = 0) :=
    Bool.eq_false_iff.trans (not_congr h.reserved_iff)
  cases dst with
  | none => simp [RegFile.writeDest]
  | some d => simp only [RegFile.writeDest, Option.elim_some, readCell_writeCell, hres, Option.some_inj]

theorem lt_of_mem_regOf {a : Source} {i : Byte} (ha : sourceInRange n a) (hi : i ∈ regOf a) : i.toNat < n.toNat := by
  cases a with
  | reg j => exact List.mem_singleton.1 hi ▸ ha
  | imm k => cases hi

/-- R191 in full: what an expansion in range leaves, the file still ready for the next one. -/
theorem Ready.runPseudo_eq {p : Pseudo} (h : Ready o.machine n z) (hconf : o.machine.core.alu.configured = true)
    (ha : sourceInRange n p.srcA) (hb : sourceInRange n p.srcB) (hdst : ∀ d, p.dst = some d → d.toNat < n.toNat)
    {r : ExecResult} (hr : compute p.op (sourceRead o.machine p.srcA) (sourceRead o.machine p.srcB) = r) :
    ∃ o' : Orch, runPseudo p o = .ok o' ∧ o'.line = o.line ∧ o'.flags = some r.flags ∧
      o'.machine.core.alu = { o.machine.core.alu with last := some r } ∧ Ready o'.machine n z ∧
      ∀ addr : Byte, o'.machine.core.rf.readCell addr =
        if p.dst = some addr ∧ ¬(z = true ∧ addr = 0) then r.result else o.machine.core.rf.readCell addr := by
  have ⟨hs, _, _, _⟩ := h
  have hregs : AccessSucceeds o.machine (sourceRegs p) := h.accessSucceeds fun i hi =>
    (List.mem_append.1 hi).elim (lt_of_mem_regOf ha) (lt_of_mem_regOf hb)
  have hdest : AccessSucceeds o.machine p.dst.toList := h.accessSucceeds fun d hd => hdst d (Option.mem_toList.1 hd)
  obtain ⟨o', hrun, hline, hflags, hcore⟩ := runPseudo_of_succeeds hs hconf hregs hdest hr
  obtain ⟨halu, hrf, hhalted⟩ := CoreState.mk.inj hcore
  exact ⟨o', hrun, hline, hflags, halu, h.writeDest hhalted hrf,
    fun addr => (congrArg (RegFile.readCell · addr) hrf).trans (h.readCell_writeDest _ _ _)⟩

end

/-- Settles O54: an expansion in range, with the cells and sources in the words of the statement. -/
theorem pseudoInstructionReadsExecutesAndWritesBack : Obligations.PseudoInstructionReadsExecutesAndWritesBack := by
  intro p o n z h hconf ha hb hdst
  have ⟨_, _, _, hz⟩ := h
  obtain ⟨o', hrun, hline, hflags, halu, -, hcells⟩ := h.runPseudo_eq hconf ha hb hdst rfl
  rw [h.sourceRead_eq, h.sourceRead_eq] at hflags halu hcells
  refine ⟨o', hrun, hline, hflags, halu, fun addr => ?_⟩
  rw [hcells, cellValue_eq_readCell hz]

end Sys2Proof.Claims
end

section
/-! PROOF. The two-line script of a 16-bit addition (44_orchestration.md R193, R194): its two expansions are the add chain over
two byte pairs, the control line choosing the opcode the chain chooses. -/

namespace Sys2Proof.Machine

variable {o o₁ o₂ : Orch} {script : List Line}

theorem runScript_succ (fuel : Nat) (h : scriptStep script o = .ok o₁) :
    runScript script (fuel + 1) o = runScript script fuel o₁ := by
  simp only [runScript, h]

theorem runThenNext_pseudo {p : Pseudo} (h : runPseudo p o = .ok o₁) :
    runThenNext (.pseudo p) o = .ok (o₁.goto (o.line + 1)) := by
  simp only [runThenNext, runAction, h]

theorem scriptStep_act {x : Action} (hline : script[o.line]? = some (.act x)) :
    scriptStep script o = runThenNext x o := by
  simp only [scriptStep, hline]

theorem scriptStep_ifThen {f : Flag} {yes no : Action} {fl : FlagSet}
    (hline : script[o.line]? = some (.ifThen f yes (some no))) (hflags : o.flags = some fl) :
    scriptStep script o = runThenNext (if fl.get f then yes else no) o := by
  simp only [scriptStep, hline, hflags]
  split <;> rfl

/-- A pseudo-instruction and, by a flag of its result, one of two others. -/
theorem runScript_act_ifThen {f : Flag} {p yes no : Pseudo} {fl : FlagSet} (hline : o.line = 0)
    (hfirst : runPseudo p o = .ok o₁) (hflags : o₁.flags = some fl)
    (hsecond : runPseudo (if fl.get f then yes else no) (o₁.goto 1) = .ok o₂) :
    runScript [.act (.pseudo p), .ifThen f (.pseudo yes) (some (.pseudo no))] 2 o = .ok (o₂.goto 2) := by
  have hbranch : (if fl.get f then Action.pseudo yes else .pseudo no) = .pseudo (if fl.get f then yes else no) :=
    (apply_ite Action.pseudo _ _ _).symm
  have hstep : scriptStep [.act (.pseudo p), .ifThen f (.pseudo yes) (some (.pseudo no))] o = .ok (o₁.goto 1) := by
    rw [scriptStep_act (by rw [hline]; rfl), runThenNext_pseudo hfirst, hline]
  have hstep₁ :
      scriptStep [.act (.pseudo p), .ifThen f (.pseudo yes) (some (.pseudo no))] (o₁.goto 1) = .ok (o₂.goto 2) := by
    rw [scriptStep_ifThen (o := o₁.goto 1) rfl hflags, hbranch, runThenNext_pseudo hsecond]
    rfl
  rw [runScript_succ 1 hstep, runScript_succ 0 hstep₁, runScript]

/-- The control line of R193: ADC after a carry, else ADD. -/
theorem ite_carry_eq_chainOpcode (c : Bool) (dst : Option Byte) (a b : Source) :
    (if c then (⟨.arith .adc, dst, a, b⟩ : Pseudo) else ⟨.arith .add, dst, a, b⟩) =
      ⟨.arith (chainOpcode .add (some c)), dst, a, b⟩ := by
  cases c <;> rfl

end Sys2Proof.Machine

namespace Sys2Proof.Claims
open Sys2Proof.Machine

variable {o : Orch} {n : Byte} {z : Bool}

/-- The expansions of an addition: two registers, and a destination that cannot be the reserved cell. -/
theorem Ready.runPseudo_arith (m : ArithOp) {d i j : Byte} (h : Ready o.machine n z)
    (hconf : o.machine.core.alu.configured = true) (hi : i.toNat < n.toNat) (hj : j.toNat < n.toNat)
    (hd : d.toNat < n.toNat) (hne : d ≠ 0) :
    ∃ o' : Orch, runPseudo ⟨.arith m, some d, .reg i, .reg j⟩ o = .ok o' ∧
      (∃ fl, o'.flags = some fl ∧ fl.c = (arith m (o.machine.core.rf.readCell i) (o.machine.core.rf.readCell j)).2) ∧
      o'.machine.core.alu.configured = true ∧ Ready o'.machine n z ∧
      o'.machine.core.rf.readCell d = (arith m (o.machine.core.rf.readCell i) (o.machine.core.rf.readCell j)).1 ∧
      ∀ k : Byte, k ≠ d → o'.machine.core.rf.readCell k = o.machine.core.rf.readCell k := by
  obtain ⟨o', hrun, -, hflags, halu, hready, hcells⟩ :=
    h.runPseudo_eq (p := ⟨.arith m, some d, .reg i, .reg j⟩) hconf hi hj (fun _ hdst => Option.some.inj hdst ▸ hd) rfl
  refine ⟨o', hrun, ⟨_, hflags, rfl⟩, by rw [halu, hconf], hready, ?_, fun k hk => ?_⟩
  · rw [hcells, if_pos ⟨rfl, fun hzero => hne hzero.2⟩]
    rfl
  · rw [hcells, if_neg fun hdst => hk (Option.some.inj hdst.1).symm]

/-- Settles O57: the first expansion leaves r2 and r4 and its carry, so the second computes the chain's second byte; the chain
adds the whole numbers. -/
theorem sixteenBitAdditionScriptAdds : Obligations.SixteenBitAdditionScriptAdds := by
  intro o n z h hconf hn hline
  have hr : ∀ k : Byte, k.toNat < 7 → k.toNat < n.toNat := fun k hk => Nat.lt_of_lt_of_le hk hn
  obtain ⟨o₁, hfirst, ⟨fl, hflags, hcarry⟩, hconf₁, hready₁, hlow, hkeep₁⟩ :=
    h.runPseudo_arith .add hconf (hr 1 (by decide)) (hr 3 (by decide)) (hr 5 (by decide)) (by decide)
  obtain ⟨o₂, hsecond, -, -, -, hhigh, hkeep₂⟩ :=
    Ready.runPseudo_arith (o := o₁.goto 1) (chainOpcode .add (some fl.c)) hready₁ hconf₁ (hr 2 (by decide))
      (hr 4 (by decide)) (hr 6 (by decide)) (by decide)
  rw [← ite_carry_eq_chainOpcode] at hsecond
  have hkeep : ∀ k : Byte, k ≠ 5 → (o₁.goto 1).machine.core.rf.readCell k = o.machine.core.rf.readCell k := hkeep₁
  refine ⟨o₂.goto 2, runScript_act_ifThen hline hfirst hflags hsecond, ?_, fun k h5 h6 => (hkeep₂ k h6).trans (hkeep k h5)⟩
  obtain ⟨hsum, -⟩ := carryChainComputesMultiByteSumsAndDifferences
    [(o.machine.core.rf.readCell 1, o.machine.core.rf.readCell 3),
      (o.machine.core.rf.readCell 2, o.machine.core.rf.readCell 4)] (by simp)
  rw [hkeep 2 (by decide), hkeep 4 (by decide), hcarry] at hhigh
  have hlow₂ := (hkeep₂ 5 (by decide)).trans hlow
  have hbytes := congrArg₂ (fun low high => bytesToNat [low, high]) hlow₂ hhigh
  have hrange : 65536 = 256 ^ 2 := by norm_num
  rw [hrange]
  exact hbytes.trans hsum

end Sys2Proof.Claims
end

section
/-! PROOF. Errors (60_exceptions.md R200 to R206). A transaction that answers an error had a cause for that error and left
`afterError` (`exec_err`), which under ERROR_POLICY = return only records the response (`State.afterError_eq_record`). -/

namespace Sys2Proof.Machine

variable {i : Instr} {s t : State} {e : Err}

/-- Inversion at an error response: of the two things `exec_next` allows, only the error answers one. -/
theorem exec_err (h : exec i s = .next t) (he : t.responses = .err e :: s.responses) :
    s.core.halted = false ∧ Cause i s e ∧ t = s.afterError e := by
  obtain ⟨hs, ⟨e', hc, rfl⟩ | ⟨p, c, -, rfl⟩⟩ := exec_next h
  · obtain rfl : e' = e := Response.err.inj (List.cons.inj he).1
    exact ⟨hs, hc, rfl⟩
  · cases he

/-- Under ERROR_POLICY = return an error is recorded and nothing else (R203, R205). -/
theorem State.afterError_eq_record (hs : s.core.halted = false) (hp : s.errorPolicy = .ret) (e : Err) :
    s.afterError e = s.record (.err e) :=
  congrArg (fun c => (s.withCore c).record (.err e)) (State.afterError_core_of_ret hs hp e)

theorem RegFile.sizeByte_of_size {rf : RegFile} {n : Byte} (h : rf.size = some n) : rf.sizeByte = n := by
  rw [RegFile.sizeByte, h, Option.getD_some]

/-- A transaction that has a next state leaves `halted` set iff it answered an error under the halt policy (R206). -/
theorem exec_halted_iff {r : Response} (h : exec i s = .next t) (hr : t.responses = r :: s.responses) :
    t.core.halted = true ↔ r.isErr = true ∧ s.errorPolicy = .halt := by
  obtain ⟨hs, ⟨e, -, rfl⟩ | ⟨p, c, hf, rfl⟩⟩ := exec_next h
  · obtain rfl : .err e = r := (List.cons.inj hr).1
    simp [Response.isErr]
  · obtain rfl : .ok p = r := (List.cons.inj hr).1
    simp [Response.isErr, hf.halted_eq, hs]

/-- A halted machine takes no step but a reset, since every other step is a transaction (R206). -/
theorem step_of_halted (hs : s.core.halted = true) (h : step s = .next t) : ∃ rest, s.inputs = .reset :: rest := by
  obtain ⟨rest, hin, -⟩ | ⟨_, rest, i, -, -, hx⟩ := step_next h
  · exact ⟨rest, hin⟩
  · rw [exec_of_halted i (s.withInputs rest) hs] at hx
    cases hx

/-- The machine after a successful `configure` is ready for an `execute` (40_alu_control.md R100). -/
theorem exists_exec_aluConfigure (lat : Latency) (hs : s.core.halted = false)
    (hconf : s.core.alu.configured = false) :
    ∃ u, exec (.aluConfigure lat) s = .next u ∧ u.core.halted = false ∧ u.core.alu.configured = true ∧
      u.core.rf = s.core.rf ∧ u.responses = .ok .none :: s.responses :=
  ⟨_, exec_of_effect hs ⟨hconf, rfl, rfl⟩, hs, rfl, rfl, rfl⟩

end Sys2Proof.Machine

namespace Sys2Proof.Claims
open Sys2Proof.Machine

/-- Settles O41: an error response has its `Cause`, which names the error at each instruction. -/
theorem everyErrorHasItsCause : Obligations.EveryErrorHasItsCause := by
  refine ⟨fun i s t e h he => ?_, fun _ => rfl, rfl, rfl, rfl, rfl, fun _ _ => rfl⟩
  obtain ⟨-, hcause, -⟩ := exec_err h he
  cases i
  case aluLast => exact hcause.elim
  case aluConfigure lat => obtain ⟨rfl, hc⟩ := hcause; exact ⟨⟨lat, rfl⟩, hc⟩
  case rfCreate n z rl wl => obtain ⟨rfl, hc⟩ := hcause; exact ⟨⟨n, z, rl, wl, rfl⟩, hc⟩
  case rfClear | rfDump => obtain ⟨rfl, hc⟩ := hcause; exact ⟨⟨rfl, nofun⟩, hc⟩
  case rfWrite addr v =>
    obtain ⟨rfl, hc⟩ | ⟨rfl, hc, hout⟩ := hcause
    · exact ⟨⟨rfl, nofun⟩, hc⟩
    · exact ⟨.inl ⟨v, rfl⟩, hc, fun _ => RegFile.sizeByte_of_size, hout⟩
  case rfRead addr =>
    obtain ⟨rfl, hc⟩ | ⟨rfl, hc, hout⟩ := hcause
    · exact ⟨⟨rfl, nofun⟩, hc⟩
    · exact ⟨.inr (.inl rfl), hc, fun _ => RegFile.sizeByte_of_size, hout⟩
  case rfReadPair a b =>
    obtain ⟨rfl, hc⟩ | ⟨rfl, hc, hout⟩ | ⟨rfl, hc, -, hout⟩ := hcause
    · exact ⟨⟨rfl, nofun⟩, hc⟩
    · exact ⟨.inr (.inr (.inl ⟨b, rfl⟩)), hc, fun _ => RegFile.sizeByte_of_size, hout⟩
    · exact ⟨.inr (.inr (.inr ⟨a, rfl⟩)), hc, fun _ => RegFile.sizeByte_of_size, hout⟩
  all_goals obtain ⟨rfl, hc⟩ := hcause; exact ⟨rfl, hc⟩

/-- Settles O42: an error leaves `afterError`. -/
theorem anErrorChangesNoState : Obligations.AnErrorChangesNoState := by
  intro i s t e h he
  obtain ⟨hs, -, rfl⟩ := exec_err h he
  exact ⟨rfl, rfl, fun hp => State.afterError_core_of_ret hs hp e⟩

/-- Settles O43: what a transaction, and then a step, does with `halted`. -/
theorem haltPolicyStopsTheCoreForGood : Obligations.HaltPolicyStopsTheCoreForGood :=
  ⟨fun _ _ _ _ h hr => exec_halted_iff h hr, exec_of_halted, fun _ _ hs h => step_of_halted hs h⟩

/-- No transaction reads the responses given, so it answers the same with one more or one less of them. -/
theorem answers_record_iff {i : Instr} {s : State} {r r' : Response} {c : CoreState} :
    Answers i (s.record r') r c ↔ Answers i s r c := by
  refine ⟨fun h => ?_, fun h => h.record r'⟩
  obtain ⟨hs, ⟨e, hc, rfl, rfl⟩ | ⟨p, hf, rfl⟩⟩ := h.cases
  · exact raises_of_cause (s := s) hs hc
  · exact answers_of_effect (s := s) hs hf

/-- Settles O44: the error left the same machine with one more response. -/
theorem afterAnErrorTheNextTransactionIsTakenNormally : Obligations.AfterAnErrorTheNextTransactionIsTakenNormally := by
  intro i j s t e hp h he r c
  obtain ⟨hs, -, rfl⟩ := exec_err h he
  rw [State.afterError_eq_record hs hp]
  exact answers_record_iff.symm

/-- Settles O45: the refusal leaves CORE as it was, `configure` then has its effect, and so has the same `execute`. -/
theorem executeSucceedsWhenRetriedAfterConfigure : Obligations.ExecuteSucceedsWhenRetriedAfterConfigure := by
  intro i s lat hi hp hs hconf
  obtain ⟨r, hdelivers⟩ := exists_effect_iff_delivers hi
  have hrefused : exec i s = .next (s.record (.err .notConfigured)) := by
    rw [exec_of_cause hs ((cause_iff_of_isExecute hi).2 ⟨rfl, hconf⟩), State.afterError_eq_record hs hp]
  obtain ⟨u, hconfigured, hu, huconf, hrf, hresp⟩ := exists_exec_aluConfigure (s := s.record _) lat hs hconf
  have hretried := exec_of_effect hu ((hdelivers u _ _).2 ⟨huconf, rfl, rfl⟩)
  refine ⟨r, _, runAll_cons.2 ⟨_, hrefused, runAll_cons.2 ⟨u, hconfigured, runAll_cons.2 ⟨_, hretried, rfl⟩⟩⟩,
    rfl, hrf, ?_⟩
  rw [State.afterSuccess_responses, hresp, State.record_responses]

end Sys2Proof.Claims
end

section
/-! PROOF. Latency values (70_reset_and_hazards.md R240): no cause of error and no effect reads one. -/

namespace Sys2Proof.Machine
open Sys2Proof.Claims

variable {i : Instr} {s : State} {e : Err} {p : Payload} {c : CoreState}

/-- A write of a cell neither reads nor writes a latency. -/
theorem relabel_writeCell (f : Latency → Latency) (c : CoreState) (addr v : Byte) :
    relabel f { c with rf := c.rf.writeCell addr v } =
      { relabel f c with rf := (relabel f c).rf.writeCell addr v } := by
  have hres : (relabel f c).rf.reserved addr = c.rf.reserved addr := rfl
  unfold RegFile.writeCell
  rw [hres]
  cases c.rf.reserved addr <;> rfl

/-- No check of a transaction reads a latency. -/
theorem Cause.relabel (h : Cause i s e) (f : Latency → Latency) :
    Cause (relabelInstr f i) (s.withCore (Claims.relabel f s.core)) e := by
  cases i <;> exact h

theorem Delivers.relabel {r : ExecResult} (h : Delivers r s p c) (f : Latency → Latency) :
    Delivers r (s.withCore (Claims.relabel f s.core)) p (Claims.relabel f c) := by
  obtain ⟨hconf, rfl, rfl⟩ := h
  exact ⟨hconf, rfl, rfl⟩

/-- No effect reads a latency: `configure` and `create` store the ones they are given, and the others keep those held. -/
theorem Effect.relabel (h : Effect i s p c) (f : Latency → Latency) :
    Effect (relabelInstr f i) (s.withCore (Claims.relabel f s.core)) p (Claims.relabel f c) := by
  cases i
  case aluLast => obtain ⟨rfl, rfl⟩ := h; exact ⟨rfl, rfl⟩
  case aluConfigure | rfCreate | rfClear | rfDump => obtain ⟨hcheck, rfl, rfl⟩ := h; exact ⟨hcheck, rfl, rfl⟩
  case rfRead => obtain ⟨hcreated, hrange, rfl, rfl⟩ := h; exact ⟨hcreated, hrange, rfl, rfl⟩
  case rfWrite addr v =>
    obtain ⟨hcreated, hrange, rfl, rfl⟩ := h
    exact ⟨hcreated, hrange, rfl, relabel_writeCell f s.core addr v⟩
  case rfReadPair => obtain ⟨hcreated, ha, hb, rfl, rfl⟩ := h; exact ⟨hcreated, ha, hb, rfl, rfl⟩
  all_goals exact Delivers.relabel h f

end Sys2Proof.Machine

namespace Sys2Proof.Claims
open Sys2Proof.Machine

/-- Settles O50: a transaction answers by its cause or its effect, and neither reads a latency. -/
theorem latencyValuesChangeNothing : Obligations.LatencyValuesChangeNothing := by
  intro f i s r c h
  obtain ⟨hs, ⟨e, hc, rfl, rfl⟩ | ⟨p, hf, rfl⟩⟩ := h.cases
  · exact raises_of_cause hs (hc.relabel f)
  · exact answers_of_effect hs (hf.relabel f)

end Sys2Proof.Claims
end

section
/-! PROOF. Reset and boot (70_reset_and_hazards.md R230 to R233): what a reset input leaves, and what the two setup
transactions leave after it. -/

namespace Sys2Proof.Machine
variable {s : State} {rest : List Input}

/-- CORE just after boot (R233): both units hold the configuration they were given, and there is no last result and no
written cell. -/
def CoreState.booted (lat : Latency) (n : Byte) (z : Bool) (rl wl : Latency) : CoreState :=
  { alu := { configured := true, latency := some lat, last := none }
    rf := { created := true, size := some n, reserveZero := some z, readLatency := some rl, writeLatency := some wl,
            cell := [] }
    halted := false }

/-- A reset input constructs the block again, whatever state it was in (R230). -/
theorem step_reset (hin : s.inputs = .reset :: rest) : step s = .next (s.withInputs rest).construct := by
  unfold step
  simp only [hin]

end Sys2Proof.Machine

namespace Sys2Proof.Claims
open Sys2Proof.Machine

/-- `configure` has its effect on an unconfigured ALU (40_alu_control.md R100). -/
theorem answers_aluConfigure {s : State} (lat : Latency) (hs : s.core.halted = false)
    (hconf : s.core.alu.configured = false) :
    Answers (.aluConfigure lat) s (.ok .none)
      { s.core with alu := { s.core.alu with configured := true, latency := some lat } } :=
  answers_of_effect hs ⟨hconf, rfl, rfl⟩

/-- `create` has its effect on an uncreated file (43_register_file.md R160, R161). -/
theorem answers_rfCreate {s : State} (n : Byte) (z : Bool) (rl wl : Latency) (hs : s.core.halted = false)
    (hnew : s.core.rf.created = false) :
    Answers (.rfCreate n z rl wl) s (.ok .none)
      { s.core with rf :=
        { created := true, size := some n, reserveZero := some z, readLatency := some rl, writeLatency := some wl,
          cell := [] } } :=
  answers_of_effect hs ⟨hnew, rfl, rfl⟩

/-- Each setup transaction finds its unit as the start left it, whether or not the other came first (R232), and the two
leave `CoreState.booted`. -/
theorem runAll_boot (policy : ErrorPolicy) (inputs : List Input) (lat : Latency) (n : Byte) (z : Bool) (rl wl : Latency)
    {order : List Instr}
    (horder : order ∈ [[.aluConfigure lat, .rfCreate n z rl wl], [.rfCreate n z rl wl, .aluConfigure lat]]) :
    runAll order (State.start policy inputs) =
      some { core := .booted lat n z rl wl, errorPolicy := policy, inputs := inputs,
             responses := [.ok .none, .ok .none] } := by
  have hconfigure := answers_aluConfigure (s := State.start policy inputs) lat rfl rfl
  have hcreate := answers_rfCreate (s := State.start policy inputs) n z rl wl rfl rfl
  rcases List.mem_pair.1 horder with rfl | rfl
  · exact hconfigure.runAll_pair (answers_rfCreate n z rl wl rfl rfl)
  · exact hcreate.runAll_pair (answers_aluConfigure lat rfl rfl)

/-- Settles O2: `CoreState.booted` has the fields of R233. -/
theorem bootConfiguresAndCreatesInEitherOrder : Obligations.BootConfiguresAndCreatesInEitherOrder :=
  fun policy inputs lat rl wl n z _ horder =>
    ⟨_, runAll_boot policy inputs lat n z rl wl horder, rfl, rfl, rfl, rfl, rfl, rfl, CellLaws.read_nil, rfl, rfl⟩

/-- Settles O5: the step's branch for a reset input, which does not look at the core. -/
theorem resetInputPutsEveryFieldAtItsResetValue : Obligations.ResetInputPutsEveryFieldAtItsResetValue :=
  fun _ _ hin => step_reset hin

end Sys2Proof.Claims
end
